-- ==== Sys2Proof/Word.lean ====
section
/-! DEFINITION. The word types of the block (00_scope.md R10). -/

namespace Sys2Proof

/-- `W64`, a 64-bit word, signed or unsigned only by reading (R10, R97). -/
abbrev Word := BitVec 64

/-- `F64`, a 64-bit word read as a binary64 datum: it IS its bit pattern (R10, R100). -/
abbrev F64 := BitVec 64

/-- `W32`, the width of a `PackedColor` (R10, R31). -/
abbrev Word32 := BitVec 32

/-- `Byte`, an integer from 0 to 255 (R10). -/
abbrev Byte := BitVec 8

end Sys2Proof
end

