-- ==== Sys2Proof/Syntax.lean ====
section
/-! DEFINITION. What can be asked of the block: the operations of 30_encoding.md R62, the request of
R60, and the assembler lines of R69. -/

namespace Sys2Proof

/-- The 14 operations of BMX-1 (R62). An operation carries no operands: the instruction word is the
`op` field alone and the operands travel beside it on the ports (R60). -/
inductive Instr where
  | mix
  | hash1
  | hash2
  | hash3
  | hash4
  | unit1
  | unit2
  | unit3
  | unit4
  | hslr
  | hslg
  | hslb
  | argb3
  | argb4
  deriving DecidableEq, Repr

/-- The request `(op, a0, a1, a2, a3)` on the input ports (R60, 10_state.md R22). -/
structure Request where
  op : BitVec 4
  a0 : Word
  a1 : Word
  a2 : Word
  a3 : Word
  deriving DecidableEq, Repr

/-- An operand of an assembler line (R69): a pattern, a decimal real literal with value
`digits * 10 ^ exp10` and a sign, or the label of an earlier line. -/
inductive Operand where
  | bits (w : Word)
  | real (negative : Bool) (digits : Nat) (exp10 : Int)
  | label (name : List Char)
  deriving DecidableEq, Repr

/-- One line `<name> = <MNEMONIC> <operands>` (R69). -/
structure Line where
  name : List Char
  instr : Instr
  operands : List Operand
  deriving DecidableEq, Repr

end Sys2Proof
end

