-- ==== Sys2Proof/Config.lean ====
section
/-! DEFINITION. What the spec leaves to a parameter or to a free draw (00_scope.md R8). The values this
hardware takes for `CVT_RM` and `NAN_BYTE` stand in Machine/Params.lean. -/

namespace Sys2Proof

/-- The two readings of the parameter `CVT_RM` (40_numerics.md R111): toward zero, or to nearest with
ties to even. -/
inductive CvtMode where
  | rtz
  | rne
  deriving DecidableEq, Repr

/-- The places where a binary64 primitive of an operation rule may have to produce a NaN; each draws a
pattern of its own (R108). The HSL places follow 44_hsl_to_rgb.md R190 to R196 in their order. -/
inductive NanSite where
  /-- `fadd(K_ONE, s)` in `l*(1+s)` -/
  | chromaOnePlusS
  /-- `fmul(l, ...)` in `l*(1+s)` -/
  | chromaTimesL
  /-- `fadd(l, s)` -/
  | chromaLPlusS
  /-- `fmul(l, s)` -/
  | chromaLTimesS
  /-- `(l+s) - (l*s)` -/
  | chromaQDiff
  /-- `fmul(K_TWO, l)` -/
  | chromaTwoL
  /-- `(2*l) - q` -/
  | chromaPDiff
  /-- the hue offset `h + 1/3` or `h - 1/3` -/
  | hueOffset
  /-- `ffloor(t)` -/
  | wrapFloor
  /-- `t - ffloor(t)` -/
  | wrapDiff
  /-- `q - p` -/
  | rampSpan
  /-- `2/3 - w`, branch C only -/
  | rampRest
  /-- the first product of branch A or C -/
  | rampFirst
  /-- the second product of branch A or C -/
  | rampSecond
  /-- the final sum of branch A or C -/
  | rampSum
  /-- the scaling by 2^-63 in `unitmap` (never a NaN, 43_unit_interval_mapper.md R175) -/
  | unitScale
  /-- the scaling by 256 in `chan` (never a NaN, 45_channel_packer.md R220) -/
  | chanScale
  deriving DecidableEq, Repr

/-- The free draw behind `NAN_RESULT` (R108, 93 U1): for the draw that comes with a request and for a
place in its evaluation, 64 bits that nothing constrains. Log entry 4. -/
opaque Config.nanDraw : Nat → NanSite → BitVec 64

/-- The unspecified word on `res` while the inputs carry a reserved code (30_encoding.md R67, 93 U2):
nothing constrains it, and no step answers with it. Log entry 12. -/
opaque Config.reservedResult : Nat → Request → Word

end Sys2Proof
end

