-- ==== Sys2Proof/Machine/Params.lean ====
section
/-! DEFINITION. The parameter values of this hardware (00_scope.md R8) and the hardwired constants of
10_state.md R26. -/

namespace Sys2Proof.Machine

/-- `CVT_RM`: round toward zero on this hardware (R8, 40_numerics.md R111). -/
def cvtRm : CvtMode := .rtz

/-- `NAN_BYTE`: 0 on this hardware (R8, 45_channel_packer.md R220). -/
def nanByte : Byte := 0

/-- `SEED` (R26). -/
def seed : Word := 0x0000000000008000

/-- `MAXPOS`, the maximum positive 64-bit signed value (R26). -/
def maxPos : Word := 0x7FFFFFFFFFFFFFFF

/-- `K_SCALE`, 2^-63 (R26, 43_unit_interval_mapper.md R176). -/
def kScale : F64 := 0x3C00000000000000

/-- `K_ONE` (R26). -/
def kOne : F64 := 0x3FF0000000000000

/-- `K_TWO` (R26). -/
def kTwo : F64 := 0x4000000000000000

/-- `K_SIX` (R26). -/
def kSix : F64 := 0x4018000000000000

/-- `K_HALF` (R26). -/
def kHalf : F64 := 0x3FE0000000000000

/-- `K_THIRD`, the binary64 value nearest 1/3 (R26). -/
def kThird : F64 := 0x3FD5555555555555

/-- `K_SIXTH`, the binary64 value nearest 1/6 (R26). -/
def kSixth : F64 := 0x3FC5555555555555

/-- `K_TWOTHIRDS`, the binary64 value nearest 2/3 (R26). -/
def kTwoThirds : F64 := 0x3FE5555555555555

/-- `K_256` (R26). -/
def k256 : F64 := 0x4070000000000000

/-- `ALPHA_OPAQUE`, the fully opaque alpha byte (R26). -/
def alphaOpaque : Byte := 0xFF

end Sys2Proof.Machine
end

