-- ==== Sys2Proof/Machine/Binary64.lean ====
section
/-! DEFINITION. The binary64 format and its rounding (40_numerics.md R100 to R102). A finite datum is an
integer number of units of 2^-1074, the least subnormal, so exact values are integers here and
`val` reads them as rationals. -/

namespace Sys2Proof.Machine

/-- `2 ^ n`, written as a shift: the exponents of binary64 are large, and nothing should try to write
these powers out. -/
def pow2 (n : Nat) : Nat := 1 <<< n

/-- The sign bit `S = x[63]` (R100). -/
def signBit (x : F64) : Bool := x.getLsbD 63

/-- The biased exponent `E = x[62:52]` (R100). -/
def expField (x : F64) : Nat := (x.extractLsb' 52 11).toNat

/-- The fraction `F = x[51:0]` (R100). -/
def fracField (x : F64) : Nat := (x.extractLsb' 0 52).toNat

/-- The datum with the given fields (R100). -/
def mkF64 (s : Bool) (e f : Nat) : F64 :=
  ((BitVec.ofBool s ++ BitVec.ofNat 11 e : BitVec 12) ++ BitVec.ofNat 52 f : BitVec 64)

/-- NaN class (R100). -/
def isNaN (x : F64) : Bool := expField x == 2047 && fracField x != 0

/-- Infinity class (R100). -/
def isInf (x : F64) : Bool := expField x == 2047 && fracField x == 0

/-- Zero class (R100). -/
def isZero (x : F64) : Bool := expField x == 0 && fracField x == 0

/-- Subnormal class (R100). -/
def isSubnormal (x : F64) : Bool := expField x == 0 && fracField x != 0

/-- Normal class (R100). -/
def isNormal (x : F64) : Bool := decide (1 ≤ expField x) && decide (expField x ≤ 2046)

/-- Zero, subnormal or normal (R100). -/
def isFinite (x : F64) : Bool := decide (expField x ≤ 2046)

/-- `neg(x)`: bit 63 inverted, for every class (R100). -/
def fneg (x : F64) : F64 := x ^^^ 0x8000000000000000

/-- The zero of a sign (R100). -/
def zeroOf (s : Bool) : F64 := mkF64 s 0 0

/-- The infinity of a sign (R100). -/
def infOf (s : Bool) : F64 := mkF64 s 2047 0

/-- Some NaN pattern, made of free bits: the sign and the fraction as drawn, and a drawn fraction of
zero, which is no NaN, replaced by the top fraction bit. Every NaN pattern is reached (R108). -/
def nanPattern (b : BitVec 64) : F64 :=
  mkF64 (signBit b) 2047 (if fracField b = 0 then 2 ^ 51 else fracField b)

/-- The magnitude of a finite datum in units of 2^-1074: `F` for a zero or subnormal, and
`(2^52 + F) * 2^(E - 1)` for a normal, since `2^(E - 1075) = 2^(E - 1) * 2^-1074` (R100). -/
def magUnits (x : F64) : Nat :=
  if expField x = 0 then fracField x else (2 ^ 52 + fracField x) * pow2 (expField x - 1)

/-- The signed value of a finite datum in units of 2^-1074 (R100). -/
def units (x : F64) : Int :=
  if signBit x then -(magUnits x : Int) else (magUnits x : Int)

/-- `val(x)`, the exact rational value of a finite datum (R100). -/
def val (x : F64) : ℚ := (units x : ℚ) / pow2 1074

/-- The encoding of the magnitude of `m` units of 2^-1074 with sign `s`, the last part of R102: the
infinity from 2^1024 on, a zero or subnormal below 2^-1022, else the normal with
`2^e <= m < 2^(e+1)`. -/
def ofMagUnits (s : Bool) (m : Nat) : F64 :=
  if pow2 2098 ≤ m then infOf s
  else if m < 2 ^ 52 then mkF64 s 0 m
  else mkF64 s (Nat.log2 m - 51) (m / pow2 (Nat.log2 m - 52) - 2 ^ 52)

/-- The integer nearest to `n / d`, the even one when halfway (R102 (2)). -/
def nearestEven (n d : Nat) : Nat :=
  if 2 * (n % d) < d then n / d
  else if d < 2 * (n % d) then n / d + 1
  else if n / d % 2 = 0 then n / d
  else n / d + 1

/-- `rnd(q)` for the rational `q` of sign `s` and magnitude `n / d`, not zero (R102). In units of
2^-1074 the magnitude is `m / d`; the rounding unit `u` is `2^j` of them, `j = 0` below 2^-1022. -/
def rnd (s : Bool) (n d : Nat) : F64 :=
  let m := n * pow2 1074
  let j := Nat.log2 (m / d) - 52
  ofMagUnits s (nearestEven m (d * pow2 j) * pow2 j)

end Sys2Proof.Machine
end

