-- ==== Sys2Proof/Machine/Arith.lean ====
section
/-! DEFINITION. Binary64 arithmetic and conversion (40_numerics.md R103 to R111), one rounding per
primitive (R110). The argument `nan` is the pattern drawn for the place where the primitive stands:
it is the result exactly where the rule says "a NaN" (R108). -/

namespace Sys2Proof.Machine

/-- `fadd(x, y)` (R103). -/
def fadd (nan x y : F64) : F64 :=
  if isNaN x || isNaN y then nan
  else if isInf x && isInf y then (if signBit x = signBit y then x else nan)
  else if isInf x then x
  else if isInf y then y
  else if isZero x && isZero y then (if signBit x = signBit y then x else zeroOf false)
  else if units x + units y = 0 then zeroOf false
  else rnd (decide (units x + units y < 0)) (units x + units y).natAbs (pow2 1074)

/-- `fsub(x, y)`: `fadd(x, neg(y))` (R104). -/
def fsub (nan x y : F64) : F64 := fadd nan x (fneg y)

/-- `fmul(x, y)` (R105). -/
def fmul (nan x y : F64) : F64 :=
  if isNaN x || isNaN y then nan
  else if (isInf x && isZero y) || (isZero x && isInf y) then nan
  else if isInf x || isInf y then infOf (signBit x != signBit y)
  else if isZero x || isZero y then zeroOf (signBit x != signBit y)
  else rnd (signBit x != signBit y) (magUnits x * magUnits y) (pow2 2148)

/-- `ffloor(x)` (R107): the greatest integer not above the value, exactly. -/
def ffloor (nan x : F64) : F64 :=
  if isNaN x then nan
  else if isInf x || isZero x then x
  else ofMagUnits (decide (units x < 0)) ((units x / pow2 1074).natAbs * pow2 1074)

/-- `trunc(val(x))` of a finite datum: the integer part toward zero, unbounded (45_channel_packer.md
R220). -/
def truncVal (x : F64) : Int :=
  if signBit x then -(magUnits x / pow2 1074 : Nat) else (magUnits x / pow2 1074 : Nat)

/-- `cvt63(m)` for `0 <= m < 2^63` under a reading of `CVT_RM` (R111). `Nat.log2 m + 1` is the bit
length `L`. -/
def cvt63 (rm : CvtMode) (m : Nat) : F64 :=
  if m = 0 then zeroOf false
  else
    match rm with
    | .rtz =>
      let len := Nat.log2 m + 1
      mkF64 false (1022 + len)
        ((if len ≤ 53 then m * pow2 (53 - len) else m / pow2 (len - 53)) - 2 ^ 52)
    | .rne => rnd false m 1

end Sys2Proof.Machine
end

