-- ==== Sys2Proof/Machine/Flags.lean ====
section
/-! DEFINITION. The block has no flags, condition codes or predicates (10_state.md R24), and binary64
arithmetic sets none (40_numerics.md R109). The only conditions are the comparisons of R106, which
are values inside one evaluation and set nothing. -/

namespace Sys2Proof.Machine

/-- `feq(x, y)`, the document's `==` (R106). -/
def feq (x y : F64) : Bool :=
  if isNaN x || isNaN y then false
  else if isZero x && isZero y then true
  else x == y

/-- `flt(x, y)`, the document's `<`: the order of the extended reals, false for a NaN (R106). -/
def flt (x y : F64) : Bool :=
  if isNaN x || isNaN y then false
  else if isInf x then signBit x && !(isInf y && signBit y)
  else if isInf y then !signBit y
  else decide (units x < units y)

end Sys2Proof.Machine
end

