-- ==== Sys2Proof/Machine/State.lean ====
section
/-! DEFINITION. The block has no architectural state (10_state.md R20). What stands here is the present
value of its ports (R22) and the free draw that came with the request (log entries 1 and 4). -/

namespace Sys2Proof.Machine

/-- The ports of R22: the request on the inputs and the word on `res`. `draw` is the model's own: which
NaN patterns the evaluation of this request draws (40_numerics.md R108). It comes from outside with
the request, and no step writes it (R20; DESIGN CHOICE, log entry 4). -/
structure State where
  req : Request
  res : Word
  draw : Nat
  deriving DecidableEq, Repr

/-- The exception causes: there are none (60_exceptions.md R240), so nothing raises one. -/
inductive Fault where
  deriving DecidableEq, Repr

/-- Why a step gives no next state. -/
inductive Refusal where
  /-- Raised by an arm of `exec` whose instruction has no meaning yet; safe. No arm does so now. -/
  | notModelled (mnemonic : String)
  /-- Raised by `step` for the reserved codes 14 and 15, which a model refuses (30_encoding.md R67,
  60_exceptions.md R248); safe: the spec gives no result to prove anything about. -/
  | reservedOp (op : BitVec 4)
  deriving DecidableEq, Repr

/-- The ports before the first request. The spec gives no reset value (R32, 70_reset_and_hazards.md
R260): zeros on the inputs are a DESIGN CHOICE (log entry 2). `res` has no reset value of its own: it
carries `Eval` of those inputs, `mix(0) = 0` (log entry 3; `State.reset_settled` proves it). -/
def State.reset : State :=
  { req := { op := 0, a0 := 0, a1 := 0, a2 := 0, a3 := 0 }, res := 0, draw := 0 }

end Sys2Proof.Machine
end

