-- ==== Sys2Proof/Machine/Ops.lean ====
section
/-! DEFINITION. The named operations on the ports and the integer primitives of 40_numerics.md R91 to
R96. The block has no memory, no registers and no exceptions, so there is nothing else to name
(10_state.md R21, R28, 60_exceptions.md R240). -/

namespace Sys2Proof.Machine

/-- `shl(a, n)`: `(a * 2^n) mod 2^64` (R93). -/
def shl (a : Word) (n : Nat) : Word := a <<< n

/-- `lshr(a, n)`: the logical right shift, zeros in at the top (R94). -/
def lshr (a : Word) (n : Nat) : Word := a >>> n

/-- `rotl(a, n)`: `shl(a, n) | lshr(a, 64 - n)` (R95). -/
def rotl (a : Word) (n : Nat) : Word := shl a n ||| lshr a (64 - n)

/-- `a +64 b`: addition modulo 2^64, no carry kept (R96). -/
def add64 (a b : Word) : Word := a + b

/-- `res <- w` (00_scope.md R11): the result port is driven, nothing else changes. -/
def State.drive (s : State) (w : Word) : State := { s with res := w }

/-- The NaN pattern this evaluation draws at a place (R108): any NaN at all. The patterns are those of the
draw that came with the request, so evaluations given the same draw, on one block or on two, draw
alike, and evaluations given different draws share nothing (DESIGN CHOICE, log entries 4 and 9). -/
def State.nanAt (s : State) (site : NanSite) : F64 := nanPattern (Config.nanDraw s.draw site)

end Sys2Proof.Machine
end

