-- ==== Sys2Proof/Machine/Operands.lean ====
section
/-! DEFINITION. Operand assembly (30_encoding.md R63): an operand is the 64 bits of its port, whole and
unchanged. There is no other operand form. -/

namespace Sys2Proof.Machine

/-- The first operand, from port `a0`. -/
def State.opnd0 (s : State) : Word := s.req.a0

/-- The second operand, from port `a1`. -/
def State.opnd1 (s : State) : Word := s.req.a1

/-- The third operand, from port `a2`. -/
def State.opnd2 (s : State) : Word := s.req.a2

/-- The fourth operand, from port `a3`. -/
def State.opnd3 (s : State) : Word := s.req.a3

/-- `rawBits(v)`: the port's bits themselves, read as a `W64` (40_numerics.md R112). -/
def rawBits (v : F64) : Word := v

/-- `zext_64(v)`: a 32-bit result on the 64-bit port, zeros above it (R65). -/
def zext64 (v : Word32) : Word := v.setWidth 64

end Sys2Proof.Machine
end

