-- ==== Sys2Proof/Machine/HslToRgb.lean ====
section
/-! DEFINITION. The ColorSpaceConverter unit (44_hsl_to_rgb.md). `nan` gives the pattern drawn at each
place where a primitive may produce a NaN (40_numerics.md R108). -/

namespace Sys2Proof.Machine

/-- The channel an HSL operation computes (R196). -/
inductive Channel where
  | red
  | green
  | blue
  deriving DecidableEq, Repr

/-- The `q` of `chroma(s, l)` (R190): a NaN `l` and `l = 0.5` take the second form. -/
def chromaQ (nan : NanSite → F64) (s l : F64) : F64 :=
  if flt l kHalf then
    fmul (nan .chromaTimesL) l (fadd (nan .chromaOnePlusS) kOne s)
  else
    fsub (nan .chromaQDiff) (fadd (nan .chromaLPlusS) l s) (fmul (nan .chromaLTimesS) l s)

/-- The `p` of `chroma(s, l)`, `(2*l) - q` (R190). -/
def chromaP (nan : NanSite → F64) (s l : F64) : F64 :=
  fsub (nan .chromaPDiff) (fmul (nan .chromaTwoL) kTwo l) (chromaQ nan s l)

/-- `wrap(t)`, the floored modulo by 1 (R191). -/
def wrap (nan : NanSite → F64) (t : F64) : F64 :=
  fsub (nan .wrapDiff) t (ffloor (nan .wrapFloor) t)

/-- `component(p, q, w)`, first match wins (R192). -/
def component (nan : NanSite → F64) (p q w : F64) : F64 :=
  if flt w kSixth then
    fadd (nan .rampSum) p
      (fmul (nan .rampSecond) (fmul (nan .rampFirst) (fsub (nan .rampSpan) q p) kSix) w)
  else if flt w kHalf then q
  else if flt w kTwoThirds then
    fadd (nan .rampSum) p
      (fmul (nan .rampSecond)
        (fmul (nan .rampFirst) (fsub (nan .rampSpan) q p) (fsub (nan .rampRest) kTwoThirds w)) kSix)
  else p

/-- The offset hue `t` of a channel (R196); no addition is performed for green. -/
def offsetHue (nan : NanSite → F64) (k : Channel) (h : F64) : F64 :=
  match k with
  | .red => fadd (nan .hueOffset) h kThird
  | .green => h
  | .blue => fsub (nan .hueOffset) h kThird

/-- `hsl(k, h, s, l)` (R196). -/
def hsl (nan : NanSite → F64) (k : Channel) (h s l : F64) : F64 :=
  if feq s (zeroOf false) then l
  else component nan (chromaP nan s l) (chromaQ nan s l) (wrap nan (offsetHue nan k h))

/-- `HSLR` (R193). -/
def execHslr (s : State) : Host.Outcome State Fault Refusal :=
  .next (s.drive (hsl s.nanAt .red s.opnd0 s.opnd1 s.opnd2))

/-- `HSLG` (R194). -/
def execHslg (s : State) : Host.Outcome State Fault Refusal :=
  .next (s.drive (hsl s.nanAt .green s.opnd0 s.opnd1 s.opnd2))

/-- `HSLB` (R195). -/
def execHslb (s : State) : Host.Outcome State Fault Refusal :=
  .next (s.drive (hsl s.nanAt .blue s.opnd0 s.opnd1 s.opnd2))

end Sys2Proof.Machine
end

