-- ==== Sys2Proof/Machine/Packer.lean ====
section
/-! DEFINITION. The ChannelPacker unit (45_channel_packer.md). -/

namespace Sys2Proof.Machine

/-- `min(255, max(0, T))` as a byte (R220). -/
def clampByte (t : Int) : Byte := BitVec.ofNat 8 (min 255 (max 0 t)).toNat

/-- `chan(v)`: scale by 256, truncate, clamp (R220), with the byte a NaN packs to as a parameter.
`nan` stands at the scaling, which never produces a NaN. -/
def chan (nb : Byte) (nan v : F64) : Byte :=
  if isNaN v then nb
  else
    let y := fmul nan v k256
    if isInf y then (if signBit y then 0 else 255) else clampByte (truncVal y)

/-- `pack(A, R, G, B)`, the document's `(alpha<<24) | (red<<16) | (green<<8) | blue` (R223,
40_numerics.md R98). -/
def pack (a r g b : Byte) : Word32 :=
  (a.setWidth 32 <<< 24) ||| (r.setWidth 32 <<< 16) ||| (g.setWidth 32 <<< 8) ||| b.setWidth 32

/-- `ARGB3` (R222): alpha is the wired opaque byte. -/
def execArgb3 (s : State) : Host.Outcome State Fault Refusal :=
  let ch := chan nanByte (s.nanAt .chanScale)
  .next (s.drive (zext64 (pack alphaOpaque (ch s.opnd0) (ch s.opnd1) (ch s.opnd2))))

/-- `ARGB4` (R221): operands red, green, blue, alpha. -/
def execArgb4 (s : State) : Host.Outcome State Fault Refusal :=
  let ch := chan nanByte (s.nanAt .chanScale)
  .next (s.drive (zext64 (pack (ch s.opnd3) (ch s.opnd0) (ch s.opnd1) (ch s.opnd2))))

end Sys2Proof.Machine
end

