-- ==== Sys2Proof/Machine/Mixer.lean ====
section
/-! DEFINITION. The BitMixer unit (41_bitmixer.md). -/

namespace Sys2Proof.Machine

/-- `mix : W64 -> W64`, three xor-shift steps in sequence (R140). -/
def mix (a : Word) : Word :=
  let a1 := a ^^^ shl a 21
  let a2 := a1 ^^^ lshr a1 35
  a2 ^^^ shl a2 4

/-- `MIX` (R140). -/
def execMix (s : State) : Host.Outcome State Fault Refusal :=
  .next (s.drive (mix s.opnd0))

end Sys2Proof.Machine
end

