-- ==== Sys2Proof/Machine/Hasher.lean ====
section
/-! DEFINITION. The CoordinateHasher unit (42_coordinate_hasher.md). -/

namespace Sys2Proof.Machine

/-- `fold(acc, v)`, the step that adds one coordinate (R150). -/
def fold (acc : Word) (v : F64) : Word :=
  mix (mix (add64 acc (rotl (mix (rawBits v)) 17)))

/-- `hash1(x)` (R151). -/
def hash1 (x : F64) : Word := fold seed x

/-- `hash2(x, y)` (R152). -/
def hash2 (x y : F64) : Word := fold (hash1 x) y

/-- `hash3(x, y, z)` (R153). -/
def hash3 (x y z : F64) : Word := fold (hash2 x y) z

/-- `hash4(x, y, z, t)` (R154). -/
def hash4 (x y z t : F64) : Word := fold (hash3 x y z) t

/-- `HASH1` (R151). -/
def execHash1 (s : State) : Host.Outcome State Fault Refusal :=
  .next (s.drive (hash1 s.opnd0))

/-- `HASH2` (R152). -/
def execHash2 (s : State) : Host.Outcome State Fault Refusal :=
  .next (s.drive (hash2 s.opnd0 s.opnd1))

/-- `HASH3` (R153). -/
def execHash3 (s : State) : Host.Outcome State Fault Refusal :=
  .next (s.drive (hash3 s.opnd0 s.opnd1 s.opnd2))

/-- `HASH4` (R154). -/
def execHash4 (s : State) : Host.Outcome State Fault Refusal :=
  .next (s.drive (hash4 s.opnd0 s.opnd1 s.opnd2 s.opnd3))

end Sys2Proof.Machine
end

