-- ==== Sys2Proof/Machine/UnitMapper.lean ====
section
/-! DEFINITION. The UnitIntervalMapper unit (43_unit_interval_mapper.md). -/

namespace Sys2Proof.Machine

/-- `unitmap(h)` under a reading of `CVT_RM` (R170). `nan` stands at the multiplication, which never
produces a NaN (R175). -/
def unitmap (rm : CvtMode) (nan : F64) (h : Word) : F64 :=
  fmul nan (cvt63 rm (h &&& maxPos).toNat) kScale

/-- `UNIT1` (R171). -/
def execUnit1 (s : State) : Host.Outcome State Fault Refusal :=
  .next (s.drive (unitmap cvtRm (s.nanAt .unitScale) (hash1 s.opnd0)))

/-- `UNIT2` (R172). -/
def execUnit2 (s : State) : Host.Outcome State Fault Refusal :=
  .next (s.drive (unitmap cvtRm (s.nanAt .unitScale) (hash2 s.opnd0 s.opnd1)))

/-- `UNIT3` (R173). -/
def execUnit3 (s : State) : Host.Outcome State Fault Refusal :=
  .next (s.drive (unitmap cvtRm (s.nanAt .unitScale) (hash3 s.opnd0 s.opnd1 s.opnd2)))

/-- `UNIT4` (R174). -/
def execUnit4 (s : State) : Host.Outcome State Fault Refusal :=
  .next (s.drive (unitmap cvtRm (s.nanAt .unitScale)
    (hash4 s.opnd0 s.opnd1 s.opnd2 s.opnd3)))

end Sys2Proof.Machine
end

