-- ==== Sys2Proof/Machine/Dispatch.lean ====
section
/-! DEFINITION. One arm per operation of 30_encoding.md R62. -/

namespace Sys2Proof.Machine

def exec (i : Instr) (s : State) : Host.Outcome State Fault Refusal :=
  match i with
  | .mix => Sys2Proof.Machine.execMix s
  | .hash1 => Sys2Proof.Machine.execHash1 s
  | .hash2 => Sys2Proof.Machine.execHash2 s
  | .hash3 => Sys2Proof.Machine.execHash3 s
  | .hash4 => Sys2Proof.Machine.execHash4 s
  | .unit1 => Sys2Proof.Machine.execUnit1 s
  | .unit2 => Sys2Proof.Machine.execUnit2 s
  | .unit3 => Sys2Proof.Machine.execUnit3 s
  | .unit4 => Sys2Proof.Machine.execUnit4 s
  | .hslr => Sys2Proof.Machine.execHslr s
  | .hslg => Sys2Proof.Machine.execHslg s
  | .hslb => Sys2Proof.Machine.execHslb s
  | .argb3 => Sys2Proof.Machine.execArgb3 s
  | .argb4 => Sys2Proof.Machine.execArgb4 s

end Sys2Proof.Machine
end

