-- ==== Sys2Proof/Decode.lean ====
section
/-! DEFINITION. Decoding is by `op` alone (30_encoding.md R61); the encoder, the flat request word of
R60, and the names and operand counts of R62 and R70. -/

namespace Sys2Proof

/-- Why an operation code has no meaning: it is 14 or 15 (R67). -/
inductive DecodeError where
  | reservedOp (op : BitVec 4)
  deriving DecidableEq, Repr

/-- The operation a code selects (R62), or the reserved code by name (R67). -/
def decodeOp (op : BitVec 4) : Except DecodeError Instr :=
  match op.toNat with
  | 0 => .ok .mix
  | 1 => .ok .hash1
  | 2 => .ok .hash2
  | 3 => .ok .hash3
  | 4 => .ok .hash4
  | 5 => .ok .unit1
  | 6 => .ok .unit2
  | 7 => .ok .unit3
  | 8 => .ok .unit4
  | 9 => .ok .hslr
  | 10 => .ok .hslg
  | 11 => .ok .hslb
  | 12 => .ok .argb3
  | 13 => .ok .argb4
  | _ => .error (.reservedOp op)

/-- The operation of table word `w`, bit 0 the least significant bit of `op`. The instruction word is
the low four bits; bits above them are no part of it (R60, R61; log entry 7). -/
def decodeTableWord (nbits w : Nat) : Option Instr :=
  if nbits < 4 then none
  else
    match decodeOp (BitVec.ofNat 4 w) with
    | .ok i => some i
    | .error _ => none

/-- The operation code of an operation (R62). -/
def encodeOp (i : Instr) : BitVec 4 :=
  match i with
  | .mix => 0
  | .hash1 => 1
  | .hash2 => 2
  | .hash3 => 3
  | .hash4 => 4
  | .unit1 => 5
  | .unit2 => 6
  | .unit3 => 7
  | .unit4 => 8
  | .hslr => 9
  | .hslg => 10
  | .hslb => 11
  | .argb3 => 12
  | .argb4 => 13

/-- How many operand ports an operation reads, the column `n` of R62. -/
def arity (i : Instr) : Nat :=
  match i with
  | .mix | .hash1 | .unit1 => 1
  | .hash2 | .unit2 => 2
  | .hash3 | .unit3 | .hslr | .hslg | .hslb | .argb3 => 3
  | .hash4 | .unit4 | .argb4 => 4

/-- The flat 260-bit request word `{op, a3, a2, a1, a0}` (R60). -/
def encodeFlat (r : Request) : BitVec 260 :=
  ((((r.op ++ r.a3 : BitVec 68) ++ r.a2 : BitVec 132) ++ r.a1 : BitVec 196) ++ r.a0 : BitVec 260)

/-- The request a flat word carries (R60): `a0` in bits 63:0 up to `op` in bits 259:256. -/
def requestOfFlat (f : BitVec 260) : Request :=
  { op := f.extractLsb' 256 4
    a0 := f.extractLsb' 0 64
    a1 := f.extractLsb' 64 64
    a2 := f.extractLsb' 128 64
    a3 := f.extractLsb' 192 64 }

/-- A flat word decoded: the operation its `op` field selects, and the request it is part of. -/
def decodeFlat (f : BitVec 260) : Except DecodeError (Instr × Request) :=
  match decodeOp (requestOfFlat f).op with
  | .ok i => .ok (i, requestOfFlat f)
  | .error e => .error e

/-- The mnemonic of an operation, letter for letter (R62). -/
def mnemonic (i : Instr) : List Char :=
  match i with
  | .mix => ['M', 'I', 'X']
  | .hash1 => ['H', 'A', 'S', 'H', '1']
  | .hash2 => ['H', 'A', 'S', 'H', '2']
  | .hash3 => ['H', 'A', 'S', 'H', '3']
  | .hash4 => ['H', 'A', 'S', 'H', '4']
  | .unit1 => ['U', 'N', 'I', 'T', '1']
  | .unit2 => ['U', 'N', 'I', 'T', '2']
  | .unit3 => ['U', 'N', 'I', 'T', '3']
  | .unit4 => ['U', 'N', 'I', 'T', '4']
  | .hslr => ['H', 'S', 'L', 'R']
  | .hslg => ['H', 'S', 'L', 'G']
  | .hslb => ['H', 'S', 'L', 'B']
  | .argb3 => ['A', 'R', 'G', 'B', '3']
  | .argb4 => ['A', 'R', 'G', 'B', '4']

/-- Every operation, in the order of the codes (R62). -/
def allInstrs : List Instr :=
  [.mix, .hash1, .hash2, .hash3, .hash4, .unit1, .unit2, .unit3, .unit4,
    .hslr, .hslg, .hslb, .argb3, .argb4]

/-- The operation a mnemonic names (R69). -/
def instrOfMnemonic (m : List Char) : Option Instr :=
  allInstrs.find? fun i => mnemonic i = m

/-- The pseudo-operations of R70: what is written, with how many operands, and what it expands to. -/
def pseudoTable : List (List Char × Instr) :=
  [ (['h', 'a', 's', 'h'], .hash1), (['h', 'a', 's', 'h'], .hash2),
    (['h', 'a', 's', 'h'], .hash3), (['h', 'a', 's', 'h'], .hash4),
    (['h', 'a', 's', 'h', '1'], .hash1), (['h', 'a', 's', 'h', '2'], .hash2),
    (['h', 'a', 's', 'h', '3'], .hash3), (['h', 'a', 's', 'h', '4'], .hash4),
    (['u', 'n', 'i', 't', 'H', 'a', 's', 'h'], .unit1),
    (['u', 'n', 'i', 't', 'H', 'a', 's', 'h'], .unit2),
    (['u', 'n', 'i', 't', 'H', 'a', 's', 'h'], .unit3),
    (['u', 'n', 'i', 't', 'H', 'a', 's', 'h'], .unit4),
    (['t', 'o', 'U', 'n', 'i', 't', '1'], .unit1),
    (['t', 'o', 'U', 'n', 'i', 't', '2'], .unit2),
    (['t', 'o', 'U', 'n', 'i', 't', '3'], .unit3),
    (['t', 'o', 'U', 'n', 'i', 't', '4'], .unit4),
    (['m', 'i', 'x'], .mix),
    (['r', 'e', 'd', 'F', 'r', 'o', 'm', 'H', 'S', 'L'], .hslr),
    (['g', 'r', 'e', 'e', 'n', 'F', 'r', 'o', 'm', 'H', 'S', 'L'], .hslg),
    (['b', 'l', 'u', 'e', 'F', 'r', 'o', 'm', 'H', 'S', 'L'], .hslb),
    (['t', 'o', 'A', 'R', 'G', 'B'], .argb3),
    (['t', 'o', 'A', 'R', 'G', 'B'], .argb4) ]

/-- The one operation a pseudo-operation expands to, chosen by its argument count (R70). -/
def expandPseudo (name : List Char) (n : Nat) : Option Instr :=
  (pseudoTable.find? fun e => e.1 = name ∧ arity e.2 = n).map Prod.snd

end Sys2Proof
end

