-- ==== Sys2Proof/Machine/Eval.lean ====
section
/-! DEFINITION. `Eval(op, a0, a1, a2, a3)` of 10_state.md R22 as one function of the operation and the
request: the rightmost columns of the table of 30_encoding.md R62. Statements about results are
made in its terms; the meanings that `exec` dispatches to stand in the unit files. -/

namespace Sys2Proof.Machine

/-- `Eval` (R22) with the NaN patterns drawn at each place as an argument (40_numerics.md R108). -/
def eval (nan : NanSite → F64) (i : Instr) (r : Request) : Word :=
  match i with
  | .mix => mix r.a0
  | .hash1 => hash1 r.a0
  | .hash2 => hash2 r.a0 r.a1
  | .hash3 => hash3 r.a0 r.a1 r.a2
  | .hash4 => hash4 r.a0 r.a1 r.a2 r.a3
  | .unit1 => unitmap cvtRm (nan .unitScale) (hash1 r.a0)
  | .unit2 => unitmap cvtRm (nan .unitScale) (hash2 r.a0 r.a1)
  | .unit3 => unitmap cvtRm (nan .unitScale) (hash3 r.a0 r.a1 r.a2)
  | .unit4 => unitmap cvtRm (nan .unitScale) (hash4 r.a0 r.a1 r.a2 r.a3)
  | .hslr => hsl nan .red r.a0 r.a1 r.a2
  | .hslg => hsl nan .green r.a0 r.a1 r.a2
  | .hslb => hsl nan .blue r.a0 r.a1 r.a2
  | .argb3 =>
    zext64 (pack alphaOpaque (chan nanByte (nan .chanScale) r.a0)
      (chan nanByte (nan .chanScale) r.a1) (chan nanByte (nan .chanScale) r.a2))
  | .argb4 =>
    zext64 (pack (chan nanByte (nan .chanScale) r.a3) (chan nanByte (nan .chanScale) r.a0)
      (chan nanByte (nan .chanScale) r.a1) (chan nanByte (nan .chanScale) r.a2))

end Sys2Proof.Machine
end

