-- ==== Sys2Proof/Machine/Ports.lean ====
section
/-! DEFINITION. The ports as signals (10_state.md R22, 70_reset_and_hazards.md R263): whatever changes the
inputs changes `res` with them, at once. -/

namespace Sys2Proof.Machine

/-- What `res` carries for the present inputs: `Eval` of them (R22, R263), and while they carry a reserved
code a word that nothing constrains (30_encoding.md R67; log entry 12). -/
def State.portValue (s : State) : Word :=
  match decodeOp s.req.op with
  | .ok i => eval s.nanAt i s.req
  | .error _ => Config.reservedResult s.draw s.req

/-- `res` follows the inputs (R263). -/
def State.settle (s : State) : State := s.drive s.portValue

/-- The host puts a request on the input ports, and with it comes the draw of its evaluation
(R264, R265; log entry 4). Of what the ports carried before nothing is left (R20). -/
def State.present (s : State) (r : Request) (draw : Nat) : State :=
  { s with req := r, draw := draw }.settle

end Sys2Proof.Machine
end

