-- ==== Sys2Proof/Machine/Step.lean ====
section
/-! DEFINITION. One step is one evaluation of the block (00_scope.md R12, 70_reset_and_hazards.md R264):
the request on the input ports is decoded by its `op` and its result driven on `res`. -/

namespace Sys2Proof.Machine

/-- One evaluation. The reserved codes 14 and 15 are refused (30_encoding.md R67). -/
def step (s : State) : Host.Outcome State Fault Refusal :=
  match decodeOp s.req.op with
  | .ok i => exec i s
  | .error (.reservedOp op) => .refused (.reservedOp op)

/-- The operation of table word `w` put on the `op` port, `res` following it; the operand ports and the
draw stay as they are, and the next step evaluates it (log entries 6, 7 and 11). `nbits` plays no
part: the instruction word is four bits (30_encoding.md R60). -/
def State.withFetchWord (s : State) (_nbits w : Nat) : State :=
  s.present { s.req with op := BitVec.ofNat 4 w } s.draw

end Sys2Proof.Machine
end

