-- ==== Sys2Proof/WellFormed.lean ====
section
/-! DEFINITION. The checks a host's text and requests must pass. An operation itself has no field that
could be ill-formed (30_encoding.md R60), and no operand pattern is illegal (R66). -/

namespace Sys2Proof

/-- A host must not present `op` 14 or 15 (R67, 70_reset_and_hazards.md R265). -/
def Request.wellFormed (r : Request) : Bool :=
  decide (r.op.toNat < 14)

/-- A mnemonic takes exactly its `n` operands (R69), and only labels of earlier lines may be used. -/
def Line.wellFormed (earlier : List (List Char)) (l : Line) : Bool :=
  decide (l.operands.length = arity l.instr) &&
    l.operands.all fun o =>
      match o with
      | .label n => decide (n ∈ earlier)
      | .bits _ => true
      | .real _ _ _ => true

/-- A program is a sequence of lines, each well-formed after the ones before it (R69). -/
def wellFormedLines (earlier : List (List Char)) : List Line → Bool
  | [] => true
  | l :: rest => l.wellFormed earlier && wellFormedLines (l.name :: earlier) rest

end Sys2Proof
end

