-- ==== Sys2Proof/Machine/Assembler.lean ====
section
/-! DEFINITION. The assembler of 30_encoding.md R69 and R70: reading a line, the value of an operand, the
encoding of a line, and a list of lines evaluated by the host on one block. The block neither sees
nor keeps any of it (10_state.md R23). Log entry 8. -/

namespace Sys2Proof.Machine

/-- The pattern nearest a decimal literal's value, ties to even, and `-0.0` the negative zero (R69 b). -/
def literalBits (negative : Bool) (digits : Nat) (exp10 : Int) : F64 :=
  if digits = 0 then zeroOf negative
  else
    match exp10 with
    | .ofNat e => rnd negative (digits * 10 ^ e) 1
    | .negSucc e => rnd negative digits (10 ^ (e + 1))

/-- The results the host keeps under their names, the latest first. -/
abbrev Env := List (List Char × Word)

/-- The 64 bits an operand puts on its port (R69): a label stands for its line's `res`. -/
def resolve (env : Env) : Operand → Option Word
  | .bits w => some w
  | .real negative digits exp10 => some (literalBits negative digits exp10)
  | .label n => (env.find? fun e => e.1 = n).map Prod.snd

/-- All the values, or none if one is missing. -/
def allSome {α : Type} : List (Option α) → Option (List α)
  | [] => some []
  | none :: _ => none
  | some x :: rest => (allSome rest).map (x :: ·)

/-- The request of a line: its code and its operands from `a0` upward. A port the operation does not
read keeps what it carried (30_encoding.md R64). -/
def lineRequest (i : Instr) (vs : List Word) (r : Request) : Request :=
  { op := encodeOp i
    a0 := vs.getD 0 r.a0
    a1 := vs.getD 1 r.a1
    a2 := vs.getD 2 r.a2
    a3 := vs.getD 3 r.a3 }

/-- The encoding of a line: its `op` nibble and its four port words, `none` for an unused port (R69). -/
def encodeLine (env : Env) (l : Line) : Option (BitVec 4 × List (Option Word)) :=
  (allSome (l.operands.map (resolve env))).map fun vs =>
    (encodeOp l.instr, (List.range 4).map fun k => vs[k]?)

/-- One line evaluated on a block: the host presents the request, with the draw of its evaluation, and
keeps `res` under the name. -/
def runLine (env : Env) (s : State) (l : Line) (draw : Nat) : Option (Env × State) :=
  if l.operands.length = arity l.instr then
    match allSome (l.operands.map (resolve env)) with
    | none => none
    | some vs =>
      match step (s.present (lineRequest l.instr vs s.req) draw) with
      | .next t => some ((l.name, t.res) :: env, t)
      | .fault _ => none
      | .refused _ => none
  else none

/-- A list of lines, each with the draw of its evaluation, evaluated in order; its end state is the set of
named results (R264). -/
def runLines (env : Env) (s : State) : List (Line × Nat) → Option (Env × State)
  | [] => some (env, s)
  | e :: rest =>
    match runLine env s e.1 e.2 with
    | none => none
    | some (env', s') => runLines env' s' rest

/-- A blank between the parts of a line. -/
def isBlank (c : Char) : Bool := c == ' ' || c == '\t'

/-- A text without the blanks at its two ends. -/
def trimBlanks (t : List Char) : List Char :=
  ((t.dropWhile isBlank).reverse.dropWhile isBlank).reverse

/-- A text cut at every occurrence of a character. -/
def splitAtChar (c : Char) : List Char → List (List Char)
  | [] => [[]]
  | x :: xs =>
    if x = c then [] :: splitAtChar c xs
    else
      match splitAtChar c xs with
      | [] => [[x]]
      | h :: t => (x :: h) :: t

/-- The value of a hexadecimal digit. -/
def hexDigitValue (c : Char) : Option Nat :=
  if '0'.toNat ≤ c.toNat ∧ c.toNat ≤ '9'.toNat then some (c.toNat - '0'.toNat)
  else if 'A'.toNat ≤ c.toNat ∧ c.toNat ≤ 'F'.toNat then some (c.toNat - 'A'.toNat + 10)
  else if 'a'.toNat ≤ c.toNat ∧ c.toNat ≤ 'f'.toNat then some (c.toNat - 'a'.toNat + 10)
  else none

/-- The number hexadecimal digits write, continuing from `acc`. -/
def hexValue (acc : Nat) : List Char → Option Nat
  | [] => some acc
  | c :: cs =>
    match hexDigitValue c with
    | none => none
    | some d => hexValue (acc * 16 + d) cs

/-- A digit 0 to 15 written in hexadecimal. -/
def hexDigitChar (d : Nat) : Char :=
  if d < 10 then Char.ofNat ('0'.toNat + d) else Char.ofNat ('A'.toNat + (d - 10))

/-- The last `n` hexadecimal digits of a number, the most significant first. -/
def hexDigits : Nat → Nat → List Char
  | 0, _ => []
  | n + 1, v => hexDigitChar (v / 16 ^ n % 16) :: hexDigits n v

/-- A pattern written as in R69 (a): `0x` and 16 digits. -/
def renderBits (w : Word) : List Char := '0' :: 'x' :: hexDigits 16 w.toNat

/-- The decimal digits at the front of a text: their number, how many there are, and the rest. -/
def takeDigits (acc count : Nat) : List Char → Nat × Nat × List Char
  | [] => (acc, count, [])
  | c :: cs =>
    if c.isDigit then takeDigits (acc * 10 + (c.toNat - '0'.toNat)) (count + 1) cs
    else (acc, count, c :: cs)

/-- A text that is digits and nothing else, as a number. -/
def allDigits (t : List Char) : Option Nat :=
  if t ≠ [] ∧ (takeDigits 0 0 t).2.2 = [] then some (takeDigits 0 0 t).1 else none

/-- The exponent part `e`, sign, digits; nothing at all stands for 0. -/
def exponentPart (t : List Char) : Option Int :=
  if t = [] then some 0
  else if t.take 2 = ['e', '-'] then (allDigits (t.drop 2)).map fun n => -(n : Int)
  else if t.take 2 = ['e', '+'] then (allDigits (t.drop 2)).map fun n => (n : Int)
  else none

/-- An unsigned decimal literal: digits, perhaps a point and digits, perhaps an exponent. -/
def unsignedReal (negative : Bool) (t : List Char) : Option Operand :=
  let whole := takeDigits 0 0 t
  if whole.2.1 = 0 then none
  else if whole.2.2.head? = some '.' then
    let all := takeDigits whole.1 0 whole.2.2.tail
    if all.2.1 = 0 then none
    else (exponentPart all.2.2).map fun e => .real negative all.1 (e - (all.2.1 : Int))
  else (exponentPart whole.2.2).map fun e => .real negative whole.1 e

/-- A label: a letter, then letters, digits and underscores. -/
def isLabel (t : List Char) : Bool :=
  match t with
  | [] => false
  | c :: cs => c.isAlpha && cs.all fun x => x.isAlphanum || x == '_'

/-- An operand of a line (R69). -/
def parseOperand (t : List Char) : Option Operand :=
  if t.take 2 = ['0', 'x'] then
    if t.length = 18 then (hexValue 0 (t.drop 2)).map fun v => .bits (BitVec.ofNat 64 v) else none
  else if t.head? = some '-' then unsignedReal true t.tail
  else if isLabel t then some (.label t)
  else unsignedReal false t

/-- The operands between commas. -/
def parseOperands (t : List Char) : Option (List Operand) :=
  allSome ((splitAtChar ',' t).map fun o => parseOperand (trimBlanks o))

/-- The right side of a line: `MNEMONIC operands` (R69), or a pseudo-operation written as a call,
`name(operands)` (R70). -/
def parseRight (t : List Char) : Option (Instr × List Operand) :=
  match splitAtChar '(' t with
  | [plain] =>
    match instrOfMnemonic (plain.takeWhile fun c => !isBlank c),
      parseOperands (plain.dropWhile fun c => !isBlank c) with
    | some i, some os => if os.length = arity i then some (i, os) else none
    | _, _ => none
  | [name, args] =>
    match splitAtChar ')' args with
    | [inner, []] =>
      match parseOperands inner with
      | some os => (expandPseudo (trimBlanks name) os.length).map fun i => (i, os)
      | none => none
    | _ => none
  | _ => none

/-- A line of text (R69). -/
def parseLine (t : List Char) : Option Line :=
  match splitAtChar '=' t with
  | [left, right] =>
    if isLabel (trimBlanks left) then
      (parseRight (trimBlanks right)).map fun e =>
        { name := trimBlanks left, instr := e.1, operands := e.2 }
    else none
  | _ => none

end Sys2Proof.Machine
end

