-- ==== Sys2Proof/Machine/System.lean ====
section
/-! DEFINITION. The host's side of the interface (70_reset_and_hazards.md R264, R265) and a system of
several blocks (20_memory.md R51, 60_exceptions.md R246). Log entries 6 and 9. -/

namespace Sys2Proof.Machine

/-- What a host may do to a block (R265): present a request, with which the draw of its evaluation comes
(log entry 4), or abandon one. -/
inductive HostAction where
  | request (r : Request) (draw : Nat)
  | abandon
  deriving DecidableEq, Repr

/-- The effect of a host's action on the ports: an abandoned request leaves nothing behind (R241). -/
def State.hostAct (s : State) (act : HostAction) : State :=
  match act with
  | .request r draw => s.present r draw
  | .abandon => s

/-- One request served: present it, evaluate once, sample `res` (R264). A reserved code gets no answer
(30_encoding.md R67). -/
def serve (s : State) (r : Request) (draw : Nat) : Option Word × State :=
  match step (s.present r draw) with
  | .next t => (some t.res, t)
  | .fault _ => (none, s.present r draw)
  | .refused _ => (none, s.present r draw)

/-- One entry of a schedule: a request for the block at a position, with the draw of its evaluation, which
the schedule leaves free, whichever block it is (40_numerics.md R108; log entry 9). -/
structure Turn where
  block : Nat
  req : Request
  draw : Nat
  deriving DecidableEq, Repr

/-- A schedule of requests on a list of blocks; the answers in the order of the schedule, none for a
position without a block (R46, R246). -/
def serveAll (blocks : List State) : List Turn → List (Option Word)
  | [] => []
  | e :: rest =>
    match blocks[e.block]? with
    | none => none :: serveAll blocks rest
    | some s =>
      (serve s e.req e.draw).1 :: serveAll (blocks.set e.block (serve s e.req e.draw).2) rest

end Sys2Proof.Machine
end

