-- ==== Sys2Proof/Safety.lean ====
section
/-! DEFINITION. The terms the statements use: equality but for the free NaN bits, what a request may be
answered with, and what a consistent set of ports is. -/

namespace Sys2Proof.Machine

/-- The same datum, or two NaNs: the one freedom 40_numerics.md R108 leaves (10_state.md R30). -/
def SameUpToNaN (x y : F64) : Prop := x = y ∨ (isNaN x = true ∧ isNaN y = true)

/-- A choice of NaN patterns as R108 allows it. -/
def NanChoice (nan : NanSite → F64) : Prop := ∀ site, isNaN (nan site) = true

/-- `w` is a result the rules allow for `r`: `Eval` of it under some choice of NaN patterns (R22, R108). -/
def Allowed (r : Request) (w : Word) : Prop :=
  ∃ (i : Instr) (nan : NanSite → F64),
    decodeOp r.op = .ok i ∧ NanChoice nan ∧ w = eval nan i r

/-- The result carries the type its operation gives it: a `UnitValue` is a non-negative number below
one, a `PackedColor` has its upper half zero (10_state.md R31, 30_encoding.md R65). -/
def ResultTyped (i : Instr) (w : Word) : Prop :=
  match i with
  | .unit1 | .unit2 | .unit3 | .unit4 =>
    isFinite w = true ∧ signBit w = false ∧ 0 ≤ val w ∧ val w < 1
  | .argb3 | .argb4 => w.toNat < 2 ^ 32
  | .mix | .hash1 | .hash2 | .hash3 | .hash4 => True
  | .hslr | .hslg | .hslb => True

/-- The ports are consistent: an assigned request has on `res` what the rules allow for it, with the
type of its operation (R22, R263). -/
def State.PortsConsistent (s : State) : Prop :=
  ∀ i, decodeOp s.req.op = .ok i → Allowed s.req s.res ∧ ResultTyped i s.res

/-- `res` carries what the present inputs evaluate to (10_state.md R22, 70_reset_and_hazards.md R263). -/
def State.Settled (s : State) : Prop := s.res = s.portValue

/-- The magnitude of a finite datum as a rational (40_numerics.md R100). -/
def magVal (x : F64) : ℚ := (magUnits x : ℚ) / pow2 1074

end Sys2Proof.Machine
end

