-- ==== Sys2Proof/Certificates/Slice0/Obligations.lean ====
section
/-! DEFINITION. The statements about the block, each from the rules of spec/ it names. -/

open Sys2Proof Sys2Proof.Machine

/-! ### Codes, requests and steps -/

/-- 30_encoding.md R62, a few rows: the nibble written out from the table selects the operation of its
row, one for each unit and the two ends of the table. -/
def Obligations.CodeWordsDecodeAsTabled : Prop :=
  decodeOp 0b0000#4 = .ok .mix ∧ decodeOp 0b0001#4 = .ok .hash1 ∧ decodeOp 0b0100#4 = .ok .hash4 ∧
  decodeOp 0b0101#4 = .ok .unit1 ∧ decodeOp 0b1000#4 = .ok .unit4 ∧ decodeOp 0b1001#4 = .ok .hslr ∧
  decodeOp 0b1011#4 = .ok .hslb ∧ decodeOp 0b1100#4 = .ok .argb3 ∧ decodeOp 0b1101#4 = .ok .argb4

/-- R61: every code either selects exactly one operation, the same for every state that carries it, or
is reserved; over the 4-bit instruction word the mask is `0xF` and the match is the code. -/
def Obligations.OpAloneSelectsTheOperation : Prop :=
  (∀ op : BitVec 4,
    (op.toNat < 14 → ∃ i, encodeOp i = op ∧ (∀ j, encodeOp j = op → j = i) ∧
      ∀ s : State, s.req.op = op → step s = exec i s) ∧
    (14 ≤ op.toNat → decodeOp op = .error (.reservedOp op))) ∧
  ∀ (w : BitVec 4) (i : Instr),
    decodeTableWord 4 w.toNat = some i ↔ w &&& 0xF#4 = encodeOp i

/-- The model's deduction of log entry 7, no rule of the spec: of a table word of any length, a whole byte
among them, only the low four bits count, and fewer than four bits are no instruction. -/
def Obligations.TableWordsCountByTheirLowFourBits : Prop :=
  ∀ nbits w : Nat,
    (4 ≤ nbits → ∀ i, decodeTableWord nbits w = some i ↔ (encodeOp i).toNat = w % 16) ∧
    (nbits < 4 → decodeTableWord nbits w = none)

/-- R60: the flat 260-bit form is `{op, a3, a2, a1, a0}`; it loses nothing in either direction, and
decoding the word of an operation with any operands gives that operation and those operands. -/
def Obligations.FlatRequestRoundTrip : Prop :=
  (∀ r : Request, requestOfFlat (encodeFlat r) = r ∧
    (encodeFlat r).toNat = r.op.toNat * 2 ^ 256 + r.a3.toNat * 2 ^ 192 + r.a2.toNat * 2 ^ 128 +
      r.a1.toNat * 2 ^ 64 + r.a0.toNat) ∧
  (∀ f : BitVec 260, encodeFlat (requestOfFlat f) = f) ∧
  (∀ (i : Instr) (a0 a1 a2 a3 : Word),
    decodeFlat (encodeFlat ⟨encodeOp i, a0, a1, a2, a3⟩) = .ok (i, ⟨encodeOp i, a0, a1, a2, a3⟩)) ∧
  ∀ (f : BitVec 260) (i : Instr) (r : Request), decodeFlat f = .ok (i, r) →
    encodeOp i = r.op ∧ encodeFlat r = f

/-- R67, R248: exactly the codes 14 and 15 are refused, under their own name, and nothing faults. -/
def Obligations.ExactlyReservedCodesAreRefused : Prop :=
  ∀ s : State,
    ((∃ why, step s = .refused why) ↔ s.req.op = 14#4 ∨ s.req.op = 15#4) ∧
    (∀ why, step s = .refused why → why = .reservedOp s.req.op) ∧
    ∀ f, step s ≠ .fault f

/-- R12, R22: a step evaluates the operation its `op` port selects. The second clause is the model's choice
(DESIGN CHOICE, log entries 6 and 11), no rule of the spec: an operation's code placed by
`withFetchWord` leaves the operand ports as they are, and that very operation is evaluated on them. -/
def Obligations.StepEvaluatesTheDecodedOperation : Prop :=
  (∀ (s : State) (i : Instr), decodeOp s.req.op = .ok i → step s = exec i s) ∧
  ∀ (s : State) (i : Instr) (nbits : Nat),
    step (s.withFetchWord nbits (encodeOp i).toNat) =
      exec i { s with req := { s.req with op := encodeOp i } }

/-- R66, R240, R263: every request with an assigned code is answered, whatever its operands, and an
evaluation never faults. -/
def Obligations.EveryAssignedRequestIsAnswered : Prop :=
  (∀ s : State, s.req.op.toNat < 14 → ∃ t, step s = .next t) ∧
  ∀ (i : Instr) (s : State), ∃ t, exec i s = .next t

/-- R20, R22, R32, R263: `res` is `Eval` of the present inputs whenever they are changed, before any
step, and after every step; a step on such ports changes nothing; and of what a block carried before a
request nothing is left. The draw that comes with a request is the model's choice (log entry 4). -/
def Obligations.ResultFollowsTheInputs : Prop :=
  (∀ (s t : State) (r : Request) (draw : Nat), s.present r draw = t.present r draw) ∧
  (∀ (s : State) (r : Request) (draw : Nat) (i : Instr), decodeOp r.op = .ok i →
    (s.present r draw).req = r ∧
    (s.present r draw).res = eval (s.present r draw).nanAt i r ∧ Allowed r (s.present r draw).res ∧
    step (s.present r draw) = .next (s.present r draw)) ∧
  (∀ s t : State, step s = .next t → t.Settled ∧ step t = .next t) ∧
  (∀ (s : State) (act : HostAction), s.Settled → (s.hostAct act).Settled) ∧
  (∀ (s : State) (nbits w : Nat), (s.withFetchWord nbits w).Settled) ∧ State.reset.Settled

/-! ### Frames, unused ports, determinism -/

/-- R20, R21, R24: an evaluation writes `res` and nothing else: not the inputs, and not the draw that came
with the request, the model's own (log entry 4). -/
def Obligations.EvaluationWritesOnlyTheResultPort : Prop :=
  ∀ (i : Instr) (s t : State), exec i s = .next t →
    t.req = s.req ∧ t.draw = s.draw ∧ t = { s with res := t.res }

/-- R64, R108: ports an operation does not read do not reach the result: two states that agree on the ports
`a0` to `a(n-1)` and carry the same draw get the same result. That equal draws give equal NaN bits is
the model's choice (DESIGN CHOICE, log entry 4), no rule of the spec. -/
def Obligations.UnreadPortsDoNotMatter : Prop :=
  ∀ (i : Instr) (s t : State), s.draw = t.draw → s.req.a0 = t.req.a0 →
    (2 ≤ arity i → s.req.a1 = t.req.a1) → (3 ≤ arity i → s.req.a2 = t.req.a2) →
    (4 ≤ arity i → s.req.a3 = t.req.a3) →
    ∃ s' t', exec i s = .next s' ∧ exec i t = .next t' ∧ s'.res = t'.res

/-- R20, R30, R43, R46: the answer depends on the request alone, not on what the block answered before.
Two blocks with the same request, whatever else they carry, answer with the same bits, but for the
free bits of a NaN that the chromatic path of the three HSL operations produces (R108). -/
def Obligations.AnswerDependsOnTheRequestAlone : Prop :=
  ∀ s t s' : State, s.req = t.req → step s = .next s' →
    ∃ t', step t = .next t' ∧ SameUpToNaN s'.res t'.res ∧
      (s.req.op.toNat < 9 ∨ 12 ≤ s.req.op.toNat ∨ isZero s.req.a1 = true → s'.res = t'.res)

/-- R30, R108: any two results the rules allow for one request are the same bits, or two NaNs; and
outside the HSL operations, and in those on the achromatic path, which does no arithmetic, they are
the same bits. -/
def Obligations.AllowedResultsAgreeUpToNaN : Prop :=
  ∀ (r : Request) (w w' : Word), Allowed r w → Allowed r w' →
    SameUpToNaN w w' ∧ (r.op.toNat < 9 ∨ 12 ≤ r.op.toNat ∨ isZero r.a1 = true → w = w')

/-- R43, R263: evaluating again changes nothing. On held inputs, the draw held with them (the model's
choice, log entry 4), a second step answers with the very same state; and the same request presented
again, with any draw, gives the same bits, but for the free bits of a NaN that the chromatic path of
the three HSL operations produces (R30, R108). -/
def Obligations.SecondEvaluationRepeatsTheFirst : Prop :=
  ∀ s t : State, step s = .next t →
    step t = .next t ∧
    ∀ draw : Nat, ∃ u, step (t.present s.req draw) = .next u ∧ u.req = s.req ∧
      SameUpToNaN t.res u.res ∧
      (s.req.op.toNat < 9 ∨ 12 ≤ s.req.op.toNat ∨ isZero s.req.a1 = true → t.res = u.res)

/-- R22, R31, R65, R175: after every step the ports are consistent: `res` is a result the rules allow
for the request on the inputs, and it has the type of its operation. -/
def Obligations.StepsKeepThePortsConsistent : Prop :=
  ∀ s t : State, s.PortsConsistent → step s = .next t → t.PortsConsistent

/-- The state after reset, the model's choice of inputs (log entries 2 and 3), is consistent. -/
def Obligations.PortsAreConsistentAtReset : Prop :=
  State.reset.PortsConsistent ∧ step State.reset = .next State.reset

/-- R46, R51, R246, in the model's terms (DESIGN CHOICE, log entry 9: a list of blocks, a schedule of whole
evaluations, each with a draw of its own, and no answer for a reserved code or a position without a
block): whatever the schedule and the draws, each request gets an answer the rules allow for it. -/
def Obligations.EveryScheduleGivesEachRequestItsAnswer : Prop :=
  ∀ (blocks : List State) (schedule : List Turn),
    List.Forall₂
      (fun (e : Turn) (a : Option Word) =>
        (e.block < blocks.length ∧ e.req.op.toNat < 14 → ∃ w, a = some w ∧ Allowed e.req w) ∧
        (¬ (e.block < blocks.length ∧ e.req.op.toNat < 14) → a = none))
      schedule (serveAll blocks schedule)

/-! ### Integer primitives, MIX and the hashes -/

/-- R93 to R96: the two shifts, the rotate and the wrapping sum, as numbers and bit by bit. -/
def Obligations.IntegerPrimitivesAsDefined : Prop :=
  (∀ (a : Word) (n : Nat), n ≤ 63 →
    (shl a n).toNat = a.toNat * 2 ^ n % 2 ^ 64 ∧ (lshr a n).toNat = a.toNat / 2 ^ n ∧
    ∀ i, i < 64 →
      (shl a n).getLsbD i = (decide (n ≤ i) && a.getLsbD (i - n)) ∧
      (lshr a n).getLsbD i = (decide (i ≤ 63 - n) && a.getLsbD (i + n))) ∧
  (∀ n : Nat, 1 ≤ n → n ≤ 63 →
    (∀ (a : Word) (i : Nat), i < 64 → (rotl a n).getLsbD i = a.getLsbD ((i + 64 - n) % 64)) ∧
    (∀ a : Word, rotl a n = shl a n ||| lshr a (64 - n)) ∧
    Function.Bijective fun a : Word => rotl a n) ∧
  (∀ a : Word, rotl a 17 = a.extractLsb' 0 47 ++ a.extractLsb' 47 17) ∧
  lshr 0x8000000000000000#64 35 = 0x0000000010000000#64 ∧
  ∀ a b : Word, (add64 a b).toNat = (a.toNat + b.toNat) % 2 ^ 64

/-- R140: `MIX` is code 0; it answers with the three xor-shift steps in sequence, the right one logical,
and the rule's corner cases hold. -/
def Obligations.MixIsThreeXorShiftSteps : Prop :=
  encodeOp .mix = 0b0000#4 ∧
  (∀ s : State, exec .mix s = .next { s with res := mix s.req.a0 }) ∧
  (∀ a : Word, mix a =
    let a1 := a ^^^ (a <<< 21)
    let a2 := a1 ^^^ (a1 >>> 35)
    a2 ^^^ (a2 <<< 4)) ∧
  mix 0 = 0 ∧ mix 0x8000000000000000 = 0x8000000110000000 ∧
  mix 0xFFFFFFFFFFFFFFFF = 0x0000000001E0000F ∧ mix 0x0000000000000001 = 0x0000000002200011 ∧
  (1 : Word) ^^^ shl 1 21 = 0x0000000000200001 ∧ lshr 0x0000000000200001 35 = 0

/-- What R141 infers from R140 (the spec's own inference): `mix` depends on `a0` only, is a bijection
with zero only at zero, is linear over xor, and a one-bit input flips between 3 and 8 output bits, 4
and 3 of them in the rule's two examples. -/
def Obligations.MixIsALinearBijection : Prop :=
  (∀ s t : State, s.req.a0 = t.req.a0 →
    ∃ s' t', exec .mix s = .next s' ∧ exec .mix t = .next t' ∧ s'.res = t'.res) ∧
  Function.Bijective mix ∧ (∀ a : Word, mix a = 0 ↔ a = 0) ∧
  (∀ a b : Word, mix (a ^^^ b) = mix a ^^^ mix b) ∧
  ∀ k, k < 64 →
    let flipped := ((List.range 64).filter fun i => (mix (1#64 <<< k)).getLsbD i).length
    3 ≤ flipped ∧ flipped ≤ 8 ∧ (k = 0 → flipped = 4) ∧ (k = 63 → flipped = 3)

/-- R150, R155: the fold step, which is not symmetric, and each arity as one fold onto the arity below,
from the seed `0x8000`; the hash operations answer with these chains. -/
def Obligations.HashesAreChainsOfFolds : Prop :=
  (∀ (acc : Word) (v : F64), fold acc v = mix (mix (acc + (mix v).rotateLeft 17))) ∧
  (∀ s : State, exec .hash1 s = .next { s with res := fold 0x0000000000008000 s.req.a0 }) ∧
  (∀ s : State, exec .hash2 s = .next { s with res := fold (hash1 s.req.a0) s.req.a1 }) ∧
  (∀ s : State, exec .hash3 s =
    .next { s with res := fold (hash2 s.req.a0 s.req.a1) s.req.a2 }) ∧
  (∀ s : State, exec .hash4 s =
    .next { s with res := fold (hash3 s.req.a0 s.req.a1 s.req.a2) s.req.a3 }) ∧
  (∀ x y z t : F64, hash1 x = fold 0x0000000000008000 x ∧ hash2 x y = fold (hash1 x) y ∧
    hash3 x y z = fold (hash2 x y) z ∧ hash4 x y z t = fold (hash3 x y z) t) ∧
  ∃ acc v : Word, fold acc v ≠ fold v acc

/-- R151 to R154: codes, answers, corner cases and worked examples of the four hash operations. -/
def Obligations.HashRulesCornerCases : Prop :=
  encodeOp .hash1 = 0b0001#4 ∧ encodeOp .hash2 = 0b0010#4 ∧ encodeOp .hash3 = 0b0011#4 ∧
  encodeOp .hash4 = 0b0100#4 ∧
  (∀ s : State,
    exec .hash1 s = .next { s with res := hash1 s.req.a0 } ∧
    exec .hash2 s = .next { s with res := hash2 s.req.a0 s.req.a1 } ∧
    exec .hash3 s = .next { s with res := hash3 s.req.a0 s.req.a1 s.req.a2 } ∧
    exec .hash4 s = .next { s with res := hash4 s.req.a0 s.req.a1 s.req.a2 s.req.a3 }) ∧
  (∀ x : F64, hash1 x = mix (mix (0x8000 + (mix x).rotateLeft 17))) ∧
  (∀ x y z t : F64, hash2 x y = fold (hash1 x) y ∧ hash3 x y z = fold (hash2 x y) z ∧
    hash4 x y z t = fold (hash3 x y z) t) ∧
  hash1 0x0000000000000000 = 0x0200000000808202 ∧ hash1 0x8000000000000000 = 0x0422288881818716 ∧
  hash1 0x7FF8000000000000 = 0x042D369999E0EF25 ∧ hash1 0x7FF8000000000001 = 0x8E0B52C8BB8623AD ∧
  hash1 0x7FF0000000000000 = 0x007845BB91635451 ∧ hash1 0x3FF0000000000000 = 0x0F6951FFD2E0DAD7 ∧
  mix 0x0000000000008000 = 0x0000011000088022 ∧ mix 0x3FF0000000000000 = 0xC0F00000781E0000 ∧
  rotl 0xC0F00000781E0000 17 = 0x0000F03C000181E0 ∧
  add64 seed 0x0000F03C000181E0 = 0x0000F03C000201E0 ∧
  mix 0x0000F03C000201E0 = 0x7F8FF7BFF3D3E11F ∧
  mix 0x4000000000000000 = 0x4000000088000000 ∧
  rotl 0x4000000088000000 17 = 0x0001100000008000 ∧
  add64 0x0F6951FFD2E0DAD7 0x0001100000008000 = 0x0F6A61FFD2E15AD7 ∧
  mix 0x0F6A61FFD2E15AD7 = 0x3993E09C6F268BBD ∧ mix 0x3993E09C6F268BBD = 0x8BFE409CC191F874 ∧
  hash2 0x3FF0000000000000 0x4000000000000000 = 0x8BFE409CC191F874 ∧
  hash2 0x4000000000000000 0x3FF0000000000000 = 0x06E90829C1FE15FA ∧
  hash2 0 0 = 0x08080040C1018000 ∧ hash3 0 0 0 = 0x0608004143868A0E ∧
  hash3 0x3FF0000000000000 0x4000000000000000 0x4008000000000000 = 0xD92B137B54662DB8 ∧
  hash4 0 0 0 0 = 0x3C20C04125028015 ∧
  hash4 0x3FF0000000000000 0x4000000000000000 0x4008000000000000 0x4010000000000000 =
    0xD2695D591829649A

/-- What R158 infers from R150 (the spec's own inference): with the other operands fixed, each hash
operation is a bijection of its last operand. -/
def Obligations.HashesAreBijectiveInTheLastOperand : Prop :=
  (∀ acc : Word, Function.Bijective (fold acc)) ∧ Function.Bijective hash1 ∧
  (∀ x : F64, Function.Bijective (hash2 x)) ∧ (∀ x y : F64, Function.Bijective (hash3 x y)) ∧
  ∀ x y z : F64, Function.Bijective (hash4 x y z)

/-- R157 and R112 make different patterns different inputs; that they always hash differently is an
inference from R150 with what R141 (b) and R158 infer (the spec's own inferences): two patterns that
differ in any one operand, equal numbers and NaNs included, hash differently. -/
def Obligations.HashesSeparatePatternsInEveryOperand : Prop :=
  (∀ x x' : F64, x ≠ x' → hash1 x ≠ hash1 x') ∧
  (∀ x x' y : F64, x ≠ x' → hash2 x y ≠ hash2 x' y ∧ hash2 y x ≠ hash2 y x') ∧
  (∀ x x' y z : F64, x ≠ x' →
    hash3 x y z ≠ hash3 x' y z ∧ hash3 y x z ≠ hash3 y x' z ∧ hash3 y z x ≠ hash3 y z x') ∧
  ∀ x x' y z t : F64, x ≠ x' →
    hash4 x y z t ≠ hash4 x' y z t ∧ hash4 y x z t ≠ hash4 y x' z t ∧
    hash4 y z x t ≠ hash4 y z x' t ∧ hash4 y z t x ≠ hash4 y z t x'

/-- R156: there are `x` and `y` whose hash changes when they are exchanged; the rule's witness. -/
def Obligations.HashOrderMatters : Prop :=
  hash2 0x3FF0000000000000 0x4000000000000000 = 0x8BFE409CC191F874 ∧
  hash2 0x4000000000000000 0x3FF0000000000000 = 0x06E90829C1FE15FA ∧
  ∃ x y : F64, x ≠ y ∧ hash2 x y ≠ hash2 y x

/-! ### The unit mapper -/

/-- R171 to R174: codes, answers, corner cases and worked examples of the four unit operations: each
answers with `unitmap` of the hash of the same operands, an ordinary number in `[0, 1)`, whatever
pattern a NaN would draw. -/
def Obligations.UnitOperationsMapTheHash : Prop :=
  encodeOp .unit1 = 0b0101#4 ∧ encodeOp .unit2 = 0b0110#4 ∧ encodeOp .unit3 = 0b0111#4 ∧
  encodeOp .unit4 = 0b1000#4 ∧
  (∀ (d : F64) (h : Word), isFinite (unitmap .rtz d h) = true ∧ 0 ≤ val (unitmap .rtz d h) ∧
    val (unitmap .rtz d h) < 1) ∧
  (∀ (s : State) (d : F64),
    exec .unit1 s = .next { s with res := unitmap .rtz d (hash1 s.req.a0) } ∧
    exec .unit2 s = .next { s with res := unitmap .rtz d (hash2 s.req.a0 s.req.a1) } ∧
    exec .unit3 s = .next { s with res := unitmap .rtz d (hash3 s.req.a0 s.req.a1 s.req.a2) } ∧
    exec .unit4 s =
      .next { s with res := unitmap .rtz d (hash4 s.req.a0 s.req.a1 s.req.a2 s.req.a3) }) ∧
  hash1 0xD113F4CCDBDE1EEE = 0 ∧ hash1 0x26C49494860C0890 = 0x8000000000000000 ∧
  hash1 0x5AA31D30F3ECFEB0 = 0x7FFFFFFFFFFFFFFF ∧ val 0x3FEFFFFFFFFFFFFF = 1 - 1 / 2 ^ 53 ∧
  cvt63 .rtz 0x0F6951FFD2E0DAD7 = 0x43AED2A3FFA5C1B5 ∧
  cvt63 .rtz 0x0BFE409CC191F874 = 0x43A7FC81398323F0 ∧
  cvt63 .rtz 0x592B137B54662DB8 = 0x43D64AC4DED5198B ∧
  cvt63 .rtz 0x52695D591829649A = 0x43D49A5756460A59 ∧
  ∀ d : F64,
    unitmap .rtz d (hash2 0x3FF0000000000000 0x4000000000000000) ≠
      unitmap .rtz d (hash2 0x4000000000000000 0x3FF0000000000000) ∧
    unitmap .rtz d (hash1 0xD113F4CCDBDE1EEE) = 0x0000000000000000 ∧
    unitmap .rtz d (hash1 0x26C49494860C0890) = 0x0000000000000000 ∧
    unitmap .rtz d (hash1 0x5AA31D30F3ECFEB0) = 0x3FEFFFFFFFFFFFFF ∧
    unitmap .rne d (hash1 0x5AA31D30F3ECFEB0) = 0x3FF0000000000000 ∧
    unitmap .rtz d (hash1 0x3FF0000000000000) = 0x3FBED2A3FFA5C1B5 ∧
    unitmap .rtz d (hash2 0x3FF0000000000000 0x4000000000000000) = 0x3FB7FC81398323F0 ∧
    unitmap .rtz d (hash3 0x3FF0000000000000 0x4000000000000000 0x4008000000000000) =
      0x3FE64AC4DED5198B ∧
    unitmap .rtz d (hash4 0x3FF0000000000000 0x4000000000000000 0x4008000000000000
      0x4010000000000000) = 0x3FE49A5756460A59

/-- R170: `unitmap` clears the sign bit, converts and scales by 2^-63; the sign bit does not reach the
result, and the scaling is exact, the converted value being `+0` or in `[1, 2^63]`, so the only
rounding is the conversion's. -/
def Obligations.UnitMapScalesTheConversionExactly : Prop :=
  ∀ (rm : CvtMode) (d : F64) (h : Word),
    (h &&& maxPos).toNat = h.toNat % 2 ^ 63 ∧
    unitmap rm d h = fmul d (cvt63 rm (h.toNat % 2 ^ 63)) kScale ∧
    unitmap rm d h = unitmap rm d (h ^^^ 0x8000000000000000) ∧
    (cvt63 rm (h.toNat % 2 ^ 63) = 0x0000000000000000 ∨
      (1 ≤ val (cvt63 rm (h.toNat % 2 ^ 63)) ∧ val (cvt63 rm (h.toNat % 2 ^ 63)) ≤ 2 ^ 63)) ∧
    isFinite (unitmap rm d h) = true ∧
    val (unitmap rm d h) = val (cvt63 rm (h.toNat % 2 ^ 63)) / 2 ^ 63

/-- The closed form that R170 infers under RTZ (the spec's own inference): the fields of the result, and
its value, the greatest binary64 value not above `m / 2^63`. -/
def Obligations.UnitMapClosedForm : Prop :=
  ∀ (d : F64) (h : Word),
    (h.toNat % 2 ^ 63 = 0 → unitmap .rtz d h = 0x0000000000000000) ∧
    (∀ L, h.toNat % 2 ^ 63 ≠ 0 → 2 ^ (L - 1) ≤ h.toNat % 2 ^ 63 → h.toNat % 2 ^ 63 < 2 ^ L →
      signBit (unitmap .rtz d h) = false ∧ expField (unitmap .rtz d h) = 959 + L ∧
      fracField (unitmap .rtz d h) =
        (if L ≤ 53 then h.toNat % 2 ^ 63 * 2 ^ (53 - L) else h.toNat % 2 ^ 63 / 2 ^ (L - 53)) -
          2 ^ 52) ∧
    isFinite (unitmap .rtz d h) = true ∧
    val (unitmap .rtz d h) ≤ ((h.toNat % 2 ^ 63 : Nat) : ℚ) / 2 ^ 63 ∧
    ∀ y : F64, isFinite y = true → val y ≤ ((h.toNat % 2 ^ 63 : Nat) : ℚ) / 2 ^ 63 →
      val y ≤ val (unitmap .rtz d h)

/-- What R175 infers from R170 and R111 (the spec's own inference): on this hardware every unit result
is a number in `[0, 1 - 2^-53]`, never `-0`, `+0` exactly for a hash of zero but for its sign, else a
normal number of at least 2^-63; under the other reading of `CVT_RM` exactly the 512 greatest values
of `m` give 1.0. -/
def Obligations.UnitResultsLieBelowOne : Prop :=
  (∀ (i : Instr) (s t : State), i = .unit1 ∨ i = .unit2 ∨ i = .unit3 ∨ i = .unit4 →
    exec i s = .next t →
      isFinite t.res = true ∧ signBit t.res = false ∧ 0 ≤ val t.res ∧
      val t.res ≤ 1 - 1 / 2 ^ 53) ∧
  ∀ (d : F64) (h : Word),
    (isFinite (unitmap .rtz d h) = true ∧ signBit (unitmap .rtz d h) = false ∧
      0 ≤ val (unitmap .rtz d h) ∧ val (unitmap .rtz d h) ≤ 1 - 1 / 2 ^ 53) ∧
    (unitmap .rtz d h = 0x0000000000000000 ↔ h.toNat % 2 ^ 63 = 0) ∧
    (h.toNat % 2 ^ 63 ≠ 0 →
      isNormal (unitmap .rtz d h) = true ∧ 1 / 2 ^ 63 ≤ val (unitmap .rtz d h)) ∧
    (unitmap .rne d h = 0x3FF0000000000000 ↔ 2 ^ 63 - 512 ≤ h.toNat % 2 ^ 63) ∧
    (h.toNat % 2 ^ 63 < 2 ^ 63 - 512 → val (unitmap .rne d h) < 1)

/-- R111: the conversion of a 63-bit integer: zero; the encoding under RTZ and its value, `m` with the
bits below the leading 53 cleared; under RNE the rounding of R102, and exactly where the two differ. -/
def Obligations.ConversionKeepsTheLeading53Bits : Prop :=
  (∀ rm, cvt63 rm 0 = 0x0000000000000000) ∧
  ∀ m L : Nat, m < 2 ^ 63 → 2 ^ (L - 1) ≤ m → m < 2 ^ L → 1 ≤ L →
    (L ≤ 53 → val (cvt63 .rtz m) = m) ∧
    (53 < L → val (cvt63 .rtz m) = ((m / 2 ^ (L - 53) * 2 ^ (L - 53) : Nat) : ℚ)) ∧
    signBit (cvt63 .rtz m) = false ∧ expField (cvt63 .rtz m) = 1022 + L ∧
    fracField (cvt63 .rtz m) =
      (if L ≤ 53 then m * 2 ^ (53 - L) else m / 2 ^ (L - 53)) - 2 ^ 52 ∧
    cvt63 .rne m = rnd false m 1 ∧
    (cvt63 .rne m ≠ cvt63 .rtz m ↔ 53 < L ∧
      (2 ^ (L - 54) < m % 2 ^ (L - 53) ∨
        (m % 2 ^ (L - 53) = 2 ^ (L - 54) ∧ m / 2 ^ (L - 53) % 2 = 1))) ∧
    (cvt63 .rne m = 0x43E0000000000000 ↔ 2 ^ 63 - 512 ≤ m)

/-! ### Binary64 arithmetic -/

/-- R100: every pattern has exactly one class, decided by its fields, and the value of a finite one is
the rule's formula in its fields; `neg` inverts bit 63. -/
def Obligations.FormatGivesClassAndValue : Prop :=
  ∀ x : F64,
    ([isZero x, isSubnormal x, isNormal x, isInf x, isNaN x].filter id).length = 1 ∧
    (isFinite x = true ↔ isZero x = true ∨ isSubnormal x = true ∨ isNormal x = true) ∧
    x.toNat = (if signBit x then 2 ^ 63 else 0) + expField x * 2 ^ 52 + fracField x ∧
    (isZero x = true ↔ x = 0x0000000000000000 ∨ x = 0x8000000000000000) ∧
    (isInf x = true ↔ x = 0x7FF0000000000000 ∨ x = 0xFFF0000000000000) ∧
    (isNaN x = true ↔ expField x = 2047 ∧ fracField x ≠ 0) ∧
    (isZero x = true → val x = 0) ∧
    (isSubnormal x = true →
      val x = (if signBit x then -1 else 1) * (fracField x : ℚ) * (2 : ℚ) ^ (-1074 : ℤ)) ∧
    (isNormal x = true →
      val x = (if signBit x then -1 else 1) * (2 ^ 52 + (fracField x : ℚ)) *
        (2 : ℚ) ^ ((expField x : ℤ) - 1075)) ∧
    ∀ k, k < 64 → (fneg x).getLsbD k = if k = 63 then !x.getLsbD k else x.getLsbD k

/-- R26: the wired constants have the tabled values; 1/3, 1/6 and 2/3 are the nearest binary64 values,
each slightly below its fraction. -/
def Obligations.WiredConstantsHaveTheirValues : Prop :=
  seed = 0x0000000000008000 ∧ maxPos.toNat = 2 ^ 63 - 1 ∧ alphaOpaque = 0xFF ∧
  val kScale = 1 / 2 ^ 63 ∧ val kOne = 1 ∧ val kTwo = 2 ∧ val kSix = 6 ∧ val kHalf = 1 / 2 ∧
  val k256 = 256 ∧
  val kThird < 1 / 3 ∧ val kSixth < 1 / 6 ∧ val kTwoThirds < 2 / 3 ∧
  ∀ y : F64, isFinite y = true →
    |val kThird - 1 / 3| ≤ |val y - 1 / 3| ∧ |val kSixth - 1 / 6| ≤ |val y - 1 / 6| ∧
    |val kTwoThirds - 2 / 3| ≤ |val y - 2 / 3|

/-- R102: rounding is to the nearest datum, the even fraction on a tie, with the sign given; from
`2^1024 - 2^970` on it is the infinity of that sign. -/
def Obligations.RoundingIsToNearestEven : Prop :=
  ∀ (s : Bool) (n d : Nat), 0 < n → 0 < d →
    signBit (rnd s n d) = s ∧
    (rnd s n d = infOf s ↔ (2 : ℚ) ^ 1024 - 2 ^ 970 ≤ (n : ℚ) / d) ∧
    ((n : ℚ) / d < 2 ^ 1024 - 2 ^ 970 →
      isFinite (rnd s n d) = true ∧
      ∀ y : F64, isFinite y = true →
        |magVal (rnd s n d) - (n : ℚ) / d| ≤ |magVal y - (n : ℚ) / d| ∧
        (|magVal (rnd s n d) - (n : ℚ) / d| = |magVal y - (n : ℚ) / d| →
          magVal y ≠ magVal (rnd s n d) → fracField (rnd s n d) % 2 = 0))

/-- R103: addition, case by case, the finite cases in exact rationals, and the rule's consequences. -/
def Obligations.AdditionFollowsTheCases : Prop :=
  ∀ d x y : F64,
    (isNaN x = true ∨ isNaN y = true → fadd d x y = d) ∧
    (isInf x = true → isInf y = true →
      fadd d x y = if signBit x = signBit y then x else d) ∧
    (isInf x = true → isFinite y = true → fadd d x y = x) ∧
    (isFinite x = true → isInf y = true → fadd d x y = y) ∧
    (isZero x = true → isZero y = true →
      fadd d x y = if signBit x = signBit y then x else 0x0000000000000000) ∧
    (isFinite x = true → isFinite y = true → (isZero x = false ∨ isZero y = false) →
      fadd d x y =
        if val x + val y = 0 then 0x0000000000000000
        else rnd (decide (val x + val y < 0)) (val x + val y).num.natAbs (val x + val y).den) ∧
    (isNaN x = false → isZero x = false →
      fadd d x 0x0000000000000000 = x ∧ fadd d x 0x8000000000000000 = x) ∧
    fadd d x y = fadd d y x

/-- R104: subtraction is addition of the negation: `x - x` is `+0` for finite `x`, infinities of one
sign subtract to a NaN, and `-0 - -0` is `+0`. -/
def Obligations.SubtractionAddsTheNegation : Prop :=
  (∀ d x y : F64, fsub d x y = fadd d x (fneg y)) ∧
  (∀ x : F64, signBit (fneg x) = !signBit x ∧ expField (fneg x) = expField x ∧
    fracField (fneg x) = fracField x) ∧
  (∀ d x : F64, isFinite x = true → fsub d x x = 0x0000000000000000) ∧
  ∀ d x : F64, isInf x = true → fsub d x x = d

/-- R105: multiplication, case by case, the finite case in exact rationals. -/
def Obligations.MultiplicationFollowsTheCases : Prop :=
  ∀ d x y : F64,
    (isNaN x = true ∨ isNaN y = true → fmul d x y = d) ∧
    ((isInf x = true ∧ isZero y = true) ∨ (isZero x = true ∧ isInf y = true) → fmul d x y = d) ∧
    (isNaN x = false → isNaN y = false → isZero x = false → isZero y = false →
      (isInf x = true ∨ isInf y = true) → fmul d x y = infOf (signBit x != signBit y)) ∧
    (isFinite x = true → isFinite y = true → (isZero x = true ∨ isZero y = true) →
      fmul d x y = zeroOf (signBit x != signBit y)) ∧
    (isFinite x = true → isFinite y = true → isZero x = false → isZero y = false →
      fmul d x y =
        rnd (signBit x != signBit y) (val x * val y).num.natAbs (val x * val y).den)

/-- R105, last sentence, read of the exact product: scaling by 2, 256 or 2^-63 is exact whenever the
exact product lies in the normal range. -/
def Obligations.PowerOfTwoScalingIsExact : Prop :=
  ∀ d x k : F64, k = kTwo ∨ k = k256 ∨ k = kScale → isFinite x = true →
    1 / (2 : ℚ) ^ 1022 ≤ |val x * val k| → |val x * val k| < (2 : ℚ) ^ 1024 →
    isNormal (fmul d x k) = true ∧ val (fmul d x k) = val x * val k

/-- R101, R102: a sum or product that is itself a datum, subnormal or not, is returned unrounded and
unflushed. -/
def Obligations.RepresentableResultsAreExact : Prop :=
  ∀ d x y z : F64, isFinite x = true → isFinite y = true → isFinite z = true → isZero z = false →
    (val x + val y = val z → fadd d x y = z) ∧ (val x * val y = val z → fmul d x y = z)

/-- R106: equality is of patterns but for the zeros, the order is that of the extended reals, and a NaN
compares false; on finite data both are the comparisons of the values. -/
def Obligations.ComparisonsOrderTheExtendedReals : Prop :=
  ∀ x y : F64,
    (isNaN x = true ∨ isNaN y = true → feq x y = false ∧ flt x y = false) ∧
    (isNaN x = false → isNaN y = false →
      (feq x y = true ↔ (isZero x = true ∧ isZero y = true) ∨ x = y)) ∧
    (isFinite x = true → isFinite y = true →
      (feq x y = true ↔ val x = val y) ∧ (flt x y = true ↔ val x < val y)) ∧
    (isFinite x = true →
      flt (infOf true) x = true ∧ flt x (infOf false) = true ∧ flt x (infOf true) = false ∧
      flt (infOf false) x = false ∧ feq x (infOf true) = false ∧ feq x (infOf false) = false) ∧
    (∀ s : Bool, feq (infOf s) (infOf s) = true ∧ flt (infOf s) (infOf s) = false) ∧
    flt (infOf true) (infOf false) = true ∧ flt (infOf false) (infOf true) = false ∧
    feq (infOf true) (infOf false) = false ∧ feq (infOf false) (infOf true) = false

/-- R107: the floor of a finite datum is the greatest integer not above it, exactly; zeros and
infinities are returned as they are; a NaN draws a NaN. -/
def Obligations.FloorIsTheGreatestInteger : Prop :=
  ∀ d x : F64,
    (isNaN x = true → ffloor d x = d) ∧
    (isInf x = true ∨ isZero x = true → ffloor d x = x) ∧
    (isFinite x = true → isFinite (ffloor d x) = true ∧ val (ffloor d x) = ((⌊val x⌋ : ℤ) : ℚ)) ∧
    (isFinite x = true → 0 < val x → val x < 1 → ffloor d x = 0x0000000000000000) ∧
    (isFinite x = true → -1 < val x → val x < 0 → ffloor d x = 0xBFF0000000000000) ∧
    (isFinite x = true → (2 : ℚ) ^ 52 ≤ |val x| → ffloor d x = x)

/-! ### HSL to RGB -/

/-- R193 to R195: each HSL operation answers with its channel; what a NaN in it looks like is the draw that
came with the request (the model's, log entry 4). -/
def Obligations.HslOperationsAnswerTheirChannel : Prop :=
  ∀ s : State, NanChoice s.nanAt ∧
    exec .hslr s = .next { s with
      res := hsl s.nanAt .red s.req.a0 s.req.a1 s.req.a2 } ∧
    exec .hslg s = .next { s with
      res := hsl s.nanAt .green s.req.a0 s.req.a1 s.req.a2 } ∧
    exec .hslb s = .next { s with
      res := hsl s.nanAt .blue s.req.a0 s.req.a1 s.req.a2 }

/-- R190, R196: the two forms of `q` by lightness, `p`, the achromatic and the chromatic path, and the
hue offset of each channel, with every primitive in the order written. -/
def Obligations.ChromaticPathIsAsWritten : Prop :=
  ∀ (nan : NanSite → F64) (k : Channel) (h s l : F64),
    ((isFinite l = true ∧ val l < 1 / 2) ∨ l = infOf true →
      chromaQ nan s l = fmul (nan .chromaTimesL) l (fadd (nan .chromaOnePlusS) kOne s)) ∧
    ((isFinite l = true ∧ 1 / 2 ≤ val l) ∨ l = infOf false ∨ isNaN l = true →
      chromaQ nan s l = fsub (nan .chromaQDiff) (fadd (nan .chromaLPlusS) l s)
        (fmul (nan .chromaLTimesS) l s)) ∧
    chromaP nan s l =
      fsub (nan .chromaPDiff) (fmul (nan .chromaTwoL) kTwo l) (chromaQ nan s l) ∧
    (isZero s = true → hsl nan k h s l = l) ∧
    (isZero s = false → hsl nan k h s l =
      component nan (chromaP nan s l) (chromaQ nan s l)
        (wrap nan (match k with
          | .red => fadd (nan .hueOffset) h 0x3FD5555555555555
          | .green => h
          | .blue => fadd (nan .hueOffset) h 0xBFD5555555555555)))

/-- R193 to R195: codes, answers (for some choice of NaN patterns, R108), corner cases and worked
examples of the three HSL operations, exactly, with the intermediate values the rules give. -/
def Obligations.HslRulesCornerCases : Prop :=
  encodeOp .hslr = 0b1001#4 ∧ encodeOp .hslg = 0b1010#4 ∧ encodeOp .hslb = 0b1011#4 ∧
  (∀ s : State, ∃ nan, NanChoice nan ∧
    (∃ t, exec .hslr s = .next t ∧ t.req = s.req ∧
      t.res = hsl nan .red s.req.a0 s.req.a1 s.req.a2) ∧
    (∃ t, exec .hslg s = .next t ∧ t.req = s.req ∧
      t.res = hsl nan .green s.req.a0 s.req.a1 s.req.a2) ∧
    ∃ t, exec .hslb s = .next t ∧ t.req = s.req ∧
      t.res = hsl nan .blue s.req.a0 s.req.a1 s.req.a2) ∧
  ∀ nan : NanSite → F64, NanChoice nan →
    (∀ k h s l, isZero s = true → hsl nan k h s l = l) ∧
    hsl nan .red 0x0000000000000000 kOne kHalf = 0x3FF0000000000000 ∧
    hsl nan .green 0x0000000000000000 kOne kHalf = 0x0000000000000000 ∧
    wrap nan 0xBFD5555555555555 = 0x3FE5555555555556 ∧
    hsl nan .blue 0x0000000000000000 kOne kHalf = 0x0000000000000000 ∧
    fadd (nan .hueOffset) kTwoThirds kThird = kOne ∧ wrap nan kOne = 0x0000000000000000 ∧
    (∀ s l, isZero s = false →
      isFinite (fmul (nan .rampFirst)
        (fsub (nan .rampSpan) (chromaQ nan s l) (chromaP nan s l)) kSix) = true →
      (∃ z, isZero z = true ∧
        hsl nan .red kTwoThirds s l = fadd (nan .rampSum) (chromaP nan s l) z) ∧
      val (hsl nan .red kTwoThirds s l) = val (chromaP nan s l)) ∧
    hsl nan .red kTwoThirds kOne kHalf = 0x0000000000000000 ∧
    wrap nan kHalf = kHalf ∧ hsl nan .green kHalf kOne kHalf = 0x3FEFFFFFFFFFFFFE ∧
    chromaQ nan kHalf 0x3FD0000000000000 = 0x3FD8000000000000 ∧
    chromaP nan kHalf 0x3FD0000000000000 = 0x3FC0000000000000 ∧
    fadd (nan .hueOffset) 0x3FD0000000000000 kThird = 0x3FE2AAAAAAAAAAAA ∧
    wrap nan 0x3FE2AAAAAAAAAAAA = 0x3FE2AAAAAAAAAAAA ∧
    hsl nan .red 0x3FD0000000000000 kHalf 0x3FD0000000000000 = 0x3FD0000000000001 ∧
    wrap nan 0x3FD0000000000000 = 0x3FD0000000000000 ∧
    hsl nan .green 0x3FD0000000000000 kHalf 0x3FD0000000000000 = 0x3FD8000000000000 ∧
    fsub (nan .hueOffset) 0x3FD0000000000000 kThird = 0xBFB5555555555554 ∧
    wrap nan 0xBFB5555555555554 = 0x3FED555555555556 ∧
    hsl nan .blue 0x3FD0000000000000 kHalf 0x3FD0000000000000 = 0x3FC0000000000000

/-- The examples of R198 (a), (b), (e), (f) (the spec's own inference), whatever is drawn: operands
out of range, a hue without a value, hues -0.25 and 1.25. -/
def Obligations.HslOutOfRangeExamplesAreExact : Prop :=
  ∀ nan : NanSite → F64, NanChoice nan →
    hsl nan .green 0x0000000000000000 kOne kTwo = 0x4008000000000000 ∧
    hsl nan .green 0x0000000000000000 kTwo kHalf = 0xBFE0000000000000 ∧
    (∀ h : F64, isNaN h = true → hsl nan .red h kOne kHalf = 0x0000000000000000) ∧
    hsl nan .red (infOf false) kOne kHalf = 0x0000000000000000 ∧
    wrap nan 0xBFD0000000000000 = 0x3FE8000000000000 ∧
    hsl nan .green 0xBFD0000000000000 kOne kHalf = 0x0000000000000000 ∧
    wrap nan 0x3FF4000000000000 = 0x3FD0000000000000 ∧
    hsl nan .green 0x3FF4000000000000 kOne kHalf = 0x3FF0000000000000

/-- R196, R197 (a): when the saturation is `+0` or `-0` all three operations answer the lightness, bit
for bit, whatever the hue is. -/
def Obligations.AchromaticAnswersTheLightness : Prop :=
  ∀ (i : Instr) (s : State), i = .hslr ∨ i = .hslg ∨ i = .hslb →
    s.req.a1 = 0x0000000000000000 ∨ s.req.a1 = 0x8000000000000000 →
    exec i s = .next { s with res := s.req.a2 }

/-- What R198 (b) infers from R190 to R196 (the spec's own inference): a NaN or infinite hue with a
saturation that is not zero answers `p`, computed from saturation and lightness alone. -/
def Obligations.HueWithoutAValueAnswersP : Prop :=
  ∀ (nan : NanSite → F64) (k : Channel) (h s l : F64), NanChoice nan →
    isNaN h = true ∨ isInf h = true → isZero s = false → hsl nan k h s l = chromaP nan s l

/-- What R198 (c), (d) infers from R190 to R196 (the spec's own inference): a NaN saturation, or a NaN
lightness with a saturation that is not zero, answers a NaN in every channel. -/
def Obligations.NanColourAnswersNan : Prop :=
  ∀ (nan : NanSite → F64) (k : Channel) (h s l : F64), NanChoice nan →
    isNaN s = true ∨ (isNaN l = true ∧ isZero s = false) → isNaN (hsl nan k h s l) = true

/-- R191: the wrapped hue by class of `t`, the bounds `[0, 1]`, and where the bound 1.0 is reached. -/
def Obligations.WrapReducesTheHue : Prop :=
  ∀ (nan : NanSite → F64) (t : F64), NanChoice nan →
    (isNaN t = true ∨ isInf t = true → isNaN (wrap nan t) = true) ∧
    (isFinite t = true → (∃ k : ℤ, val t = (k : ℚ)) → wrap nan t = 0x0000000000000000) ∧
    (isFinite t = true → (2 : ℚ) ^ 52 ≤ |val t| → wrap nan t = 0x0000000000000000) ∧
    (isFinite t = true → 0 < val t → val t < 1 → wrap nan t = t) ∧
    (isFinite t = true → isFinite (wrap nan t) = true ∧ 0 ≤ val (wrap nan t) ∧ val (wrap nan t) ≤ 1) ∧
    (isFinite t = true → -1 / 2 ^ 54 ≤ val t → val t < 0 → wrap nan t = 0x3FF0000000000000) ∧
    (isFinite t = true → val t - ((⌊val t⌋ : ℤ) : ℚ) ≠ 0 →
      wrap nan t = rnd false (val t - ((⌊val t⌋ : ℤ) : ℚ)).num.natAbs
        (val t - ((⌊val t⌋ : ℤ) : ℚ)).den) ∧
    wrap nan 0xBBC79CA10C924223 = 0x3FF0000000000000 ∧
    wrap nan 0xBCA0000000000000 = 0x3FEFFFFFFFFFFFFF

/-- R192: the helper's branch by interval of the wrapped hue; B and D return `q` and `p` untouched, and
a NaN or 1.0 takes D. The thresholds are the wired constants. -/
def Obligations.ComponentBranchesByInterval : Prop :=
  ∀ (nan : NanSite → F64) (p q w : F64),
    (isFinite w = true → val w < val kSixth →
      component nan p q w = fadd (nan .rampSum) p
        (fmul (nan .rampSecond) (fmul (nan .rampFirst) (fsub (nan .rampSpan) q p) kSix) w)) ∧
    (isFinite w = true → val kSixth ≤ val w → val w < 1 / 2 → component nan p q w = q) ∧
    (isFinite w = true → 1 / 2 ≤ val w → val w < val kTwoThirds →
      component nan p q w = fadd (nan .rampSum) p
        (fmul (nan .rampSecond)
          (fmul (nan .rampFirst) (fsub (nan .rampSpan) q p) (fsub (nan .rampRest) kTwoThirds w))
          kSix)) ∧
    (isFinite w = true → val kTwoThirds ≤ val w → component nan p q w = p) ∧
    (isNaN w = true → component nan p q w = p) ∧ component nan p q (infOf false) = p ∧
    component nan p q kOne = p ∧
    component nan p q (infOf true) = fadd (nan .rampSum) p
      (fmul (nan .rampSecond) (fmul (nan .rampFirst) (fsub (nan .rampSpan) q p) kSix) (infOf true))

/-! ### The packer -/

/-- R220: a NaN packs to `NAN_BYTE`; else the channel is scaled by 256, exactly unless that overflows to
an infinity, which saturates by its sign; a finite product is truncated toward zero and clamped. -/
def Obligations.ChannelByteTruncatesAndClamps : Prop :=
  nanByte = 0 ∧ val k256 = 256 ∧ ∀ (nb : Byte) (d v : F64),
    (isNaN v = true → chan nb d v = nb) ∧
    (isNaN v = false → fmul d v k256 = infOf false → chan nb d v = 255) ∧
    (isNaN v = false → fmul d v k256 = infOf true → chan nb d v = 0) ∧
    (isNaN v = false → fmul d v k256 = infOf false ∨ fmul d v k256 = infOf true ∨
      isFinite (fmul d v k256) = true) ∧
    (isFinite v = true → isFinite (fmul d v k256) = true → val (fmul d v k256) = val v * 256) ∧
    (isNaN v = false → isFinite (fmul d v k256) = true →
      ((chan nb d v).toNat : ℤ) = min 255 (max 0
        (if 0 ≤ val (fmul d v k256) then ⌊val (fmul d v k256)⌋ else ⌈val (fmul d v k256)⌉)))

/-- The closed form that R220 infers (the spec's own inference): the byte of a channel by the channel's
value. -/
def Obligations.ChannelByteClosedForm : Prop :=
  ∀ (nb : Byte) (d v : F64),
    (isNaN v = true → chan nb d v = nb) ∧
    (v = infOf true → chan nb d v = 0) ∧ (v = infOf false → chan nb d v = 255) ∧
    (isFinite v = true → val v < 1 / 256 → chan nb d v = 0) ∧
    (isFinite v = true → 255 / 256 ≤ val v → chan nb d v = 255) ∧
    (isFinite v = true → 1 / 256 ≤ val v → val v < 255 / 256 →
      ((chan nb d v).toNat : ℤ) = ⌊256 * val v⌋ ∧ 1 ≤ (chan nb d v).toNat ∧
        (chan nb d v).toNat ≤ 254)

/-- What R224 (c) infers from R220 (the spec's own inference): the byte of a channel never falls as
the channel rises. -/
def Obligations.ChannelByteIsMonotone : Prop :=
  ∀ (nb : Byte) (d v w : F64), isNaN v = false → isNaN w = false → flt w v = false →
    (chan nb d v).toNat ≤ (chan nb d w).toNat

/-- R221 to R223, R98: codes and answers of the packers: alpha, red, green, blue from the top byte down,
zeros above, whatever pattern a NaN would draw; the layout of the 32-bit word. -/
def Obligations.PackersAnswerArgbZeroExtended : Prop :=
  encodeOp .argb3 = 0b1100#4 ∧ encodeOp .argb4 = 0b1101#4 ∧
  (∀ (s : State) (d : F64),
    exec .argb4 s = .next { s with
      res := BitVec.ofNat 64
        ((chan 0 d s.req.a3).toNat * 2 ^ 24 + (chan 0 d s.req.a0).toNat * 2 ^ 16 +
          (chan 0 d s.req.a1).toNat * 2 ^ 8 + (chan 0 d s.req.a2).toNat) } ∧
    exec .argb3 s = .next { s with
      res := BitVec.ofNat 64
        (255 * 2 ^ 24 + (chan 0 d s.req.a0).toNat * 2 ^ 16 +
          (chan 0 d s.req.a1).toNat * 2 ^ 8 + (chan 0 d s.req.a2).toNat) }) ∧
  ∀ a r g b : Byte,
    (pack a r g b).extractLsb' 24 8 = a ∧ (pack a r g b).extractLsb' 16 8 = r ∧
    (pack a r g b).extractLsb' 8 8 = g ∧ (pack a r g b).extractLsb' 0 8 = b ∧
    (pack a r g b).toNat = a.toNat * 2 ^ 24 + r.toNat * 2 ^ 16 + g.toNat * 2 ^ 8 + b.toNat

/-- R221, R222: codes, answers, corner cases and worked examples of the two packers. -/
def Obligations.PackerRulesCornerCases : Prop :=
  encodeOp .argb4 = 0b1101#4 ∧ encodeOp .argb3 = 0b1100#4 ∧ alphaOpaque = 0xFF ∧
  (∀ (s : State) (d : F64),
    exec .argb4 s = .next { s with res := zext64 (pack (chan nanByte d s.req.a3)
      (chan nanByte d s.req.a0) (chan nanByte d s.req.a1) (chan nanByte d s.req.a2)) } ∧
    exec .argb3 s = .next { s with res := zext64 (pack alphaOpaque
      (chan nanByte d s.req.a0) (chan nanByte d s.req.a1) (chan nanByte d s.req.a2)) }) ∧
  (∀ d : F64,
    chan nanByte d 0x8000000000000000 = 0 ∧ chan nanByte d 0x3FEFDFFFFFFFFFFF = 254 ∧
    chan nanByte d 0x3FEFE00000000000 = 255 ∧ chan nanByte d 0x3F6FFFFFFFFFFFFF = 0 ∧
    chan nanByte d 0x3F70000000000000 = 1 ∧ chan nanByte d (infOf false) = 255 ∧
    chan nanByte d (infOf true) = 0 ∧ chan nanByte d kOne = 255 ∧
    ∀ v, isNaN v = true → chan nanByte d v = 0) ∧
  (∀ s : State, s.req.a0 = 0 → s.req.a1 = 0 → s.req.a2 = 0 → s.req.a3 = 0 →
    exec .argb4 s = .next { s with res := 0x0000000000000000 }) ∧
  (∀ s : State, s.req.a0 = kOne → s.req.a1 = kOne → s.req.a2 = kOne → s.req.a3 = kOne →
    exec .argb4 s = .next { s with res := 0x00000000FFFFFFFF }) ∧
  (∀ s : State, isNaN s.req.a0 = true → s.req.a1 = infOf false → s.req.a2 = infOf true →
    isNaN s.req.a3 = true → exec .argb4 s = .next { s with res := 0x000000000000FF00 }) ∧
  (∀ s : State, s.req.a0 = 0x3FD0000000000000 → s.req.a1 = kHalf →
    s.req.a2 = 0x3FE8000000000000 → s.req.a3 = kHalf →
    exec .argb4 s = .next { s with res := 0x00000000804080C0 }) ∧
  (∀ s : State, s.req.a0 = 0 → s.req.a1 = 0 → s.req.a2 = 0 →
    exec .argb3 s = .next { s with res := 0x00000000FF000000 }) ∧
  (∀ s : State, s.req.a0 = kOne → s.req.a1 = 0 → s.req.a2 = 0 →
    exec .argb3 s = .next { s with res := 0x00000000FFFF0000 }) ∧
  ∀ s : State, s.req.a0 = 0xBFF0000000000000 → s.req.a1 = kHalf → s.req.a2 = kTwo →
    exec .argb3 s = .next { s with res := 0x00000000FF0080FF }

/-- What R224 (b) infers (the spec's own inference), and R70's note: `ARGB3` is `ARGB4` with any alpha
that packs to 255, such as 1.0; each channel's byte reaches its own field alone. -/
def Obligations.OpaquePackingAgrees : Prop :=
  (∀ (s : State) (d : F64), chan nanByte d s.req.a3 = 255 → exec .argb3 s = exec .argb4 s) ∧
  (∀ s : State, s.req.a3 = kOne → exec .argb3 s = exec .argb4 s) ∧
  ∀ (s : State) (d : F64), ∃ t, exec .argb4 s = .next t ∧
    t.res.extractLsb' 24 8 = chan nanByte d s.req.a3 ∧
    t.res.extractLsb' 16 8 = chan nanByte d s.req.a0 ∧
    t.res.extractLsb' 8 8 = chan nanByte d s.req.a1 ∧
    t.res.extractLsb' 0 8 = chan nanByte d s.req.a2 ∧ t.res.extractLsb' 32 32 = 0

/-! ### The assembler -/

/-- R69 (a): a pattern written as `0x` and 16 digits reads back as the same 64 bits. -/
def Obligations.HexOperandReadsBack : Prop :=
  ∀ w : Word, parseOperand (renderBits w) = some (.bits w)

/-- R69, R264: lines that are well-formed after the names already kept all get a result. Each line's word is
a result the rules allow for its code and its operands, a label standing for the result of an earlier
line; it is kept under the line's name, and what was kept before is unchanged. How the host keeps the
names, and that it takes the lines in the order written, is the model's (log entry 8). -/
def Obligations.WellFormedLinesAllGetResults : Prop :=
  ∀ (lines : List (Line × Nat)) (env : Env) (s : State),
    wellFormedLines (env.map Prod.fst) (lines.map Prod.fst) = true →
    ∃ (words : List Word) (s' : State),
      words.length = lines.length ∧
      runLines env s lines =
        some (((lines.map fun e => e.1.name).zip words).reverse ++ env, s') ∧
      ∀ (k : Nat) (l : Line) (draw : Nat) (w : Word),
        lines[k]? = some (l, draw) → words[k]? = some w →
        ∃ (vs : List Word) (r : Request),
          allSome (l.operands.map (resolve
            ((((lines.take k).map fun e => e.1.name).zip words).reverse ++ env))) = some vs ∧
          vs.length = arity l.instr ∧ Allowed (lineRequest l.instr vs r) w

/-- R70: every name of the rule's table expands to the operation the table gives for its argument count, and
to nothing for another count; there is no other pseudo-operation. -/
def Obligations.PseudoOperationsExpandByCount : Prop :=
  (∀ n : Nat, expandPseudo ['h', 'a', 's', 'h'] n =
    if n = 1 then some .hash1 else if n = 2 then some .hash2 else if n = 3 then some .hash3
    else if n = 4 then some .hash4 else none) ∧
  (∀ n : Nat, expandPseudo ['u', 'n', 'i', 't', 'H', 'a', 's', 'h'] n =
    if n = 1 then some .unit1 else if n = 2 then some .unit2 else if n = 3 then some .unit3
    else if n = 4 then some .unit4 else none) ∧
  (∀ n : Nat, expandPseudo ['h', 'a', 's', 'h', '1'] n =
    if n = 1 then some .hash1 else none) ∧
  (∀ n : Nat, expandPseudo ['h', 'a', 's', 'h', '2'] n =
    if n = 2 then some .hash2 else none) ∧
  (∀ n : Nat, expandPseudo ['h', 'a', 's', 'h', '3'] n =
    if n = 3 then some .hash3 else none) ∧
  (∀ n : Nat, expandPseudo ['h', 'a', 's', 'h', '4'] n =
    if n = 4 then some .hash4 else none) ∧
  (∀ n : Nat, expandPseudo ['t', 'o', 'U', 'n', 'i', 't', '1'] n =
    if n = 1 then some .unit1 else none) ∧
  (∀ n : Nat, expandPseudo ['t', 'o', 'U', 'n', 'i', 't', '2'] n =
    if n = 2 then some .unit2 else none) ∧
  (∀ n : Nat, expandPseudo ['t', 'o', 'U', 'n', 'i', 't', '3'] n =
    if n = 3 then some .unit3 else none) ∧
  (∀ n : Nat, expandPseudo ['t', 'o', 'U', 'n', 'i', 't', '4'] n =
    if n = 4 then some .unit4 else none) ∧
  (∀ n : Nat, expandPseudo ['m', 'i', 'x'] n =
    if n = 1 then some .mix else none) ∧
  (∀ n : Nat, expandPseudo ['r', 'e', 'd', 'F', 'r', 'o', 'm', 'H', 'S', 'L'] n =
    if n = 3 then some .hslr else none) ∧
  (∀ n : Nat, expandPseudo ['g', 'r', 'e', 'e', 'n', 'F', 'r', 'o', 'm', 'H', 'S', 'L'] n =
    if n = 3 then some .hslg else none) ∧
  (∀ n : Nat, expandPseudo ['b', 'l', 'u', 'e', 'F', 'r', 'o', 'm', 'H', 'S', 'L'] n =
    if n = 3 then some .hslb else none) ∧
  (∀ n : Nat, expandPseudo ['t', 'o', 'A', 'R', 'G', 'B'] n =
    if n = 3 then some .argb3 else if n = 4 then some .argb4 else none) ∧
  ∀ (name : List Char) (n : Nat) (i : Instr), expandPseudo name n = some i →
    name ∈
      [ ['h', 'a', 's', 'h'], ['u', 'n', 'i', 't', 'H', 'a', 's', 'h'], ['t', 'o', 'A', 'R', 'G', 'B'],
        ['h', 'a', 's', 'h', '1'],
        ['h', 'a', 's', 'h', '2'],
        ['h', 'a', 's', 'h', '3'],
        ['h', 'a', 's', 'h', '4'],
        ['t', 'o', 'U', 'n', 'i', 't', '1'],
        ['t', 'o', 'U', 'n', 'i', 't', '2'],
        ['t', 'o', 'U', 'n', 'i', 't', '3'],
        ['t', 'o', 'U', 'n', 'i', 't', '4'],
        ['m', 'i', 'x'],
        ['r', 'e', 'd', 'F', 'r', 'o', 'm', 'H', 'S', 'L'],
        ['g', 'r', 'e', 'e', 'n', 'F', 'r', 'o', 'm', 'H', 'S', 'L'],
        ['b', 'l', 'u', 'e', 'F', 'r', 'o', 'm', 'H', 'S', 'L'] ]
end

