-- ==== Sys2Proof/Laws/Format.lean ====
section
/-! SUPPORT. The binary64 format: fields of a built datum, a datum rebuilt from its fields, the classes,
and the two directions between a finite datum and its units. -/

namespace Sys2Proof.Machine

theorem pow2_eq (n : Nat) : pow2 n = 2 ^ n := by simp [pow2, Nat.shiftLeft_eq]

theorem pow2_pos (n : Nat) : 0 < pow2 n := by rw [pow2_eq]; positivity

theorem pow2_add (m n : Nat) : pow2 (m + n) = pow2 m * pow2 n := by simp only [pow2_eq, pow_add]

theorem pow2_le {m n : Nat} (h : m ≤ n) : pow2 m ≤ pow2 n := by
  simp only [pow2_eq]; exact Nat.pow_le_pow_right (by omega) h

theorem expField_lt (x : F64) : expField x < 2048 := (x.extractLsb' 52 11).isLt

theorem fracField_lt (x : F64) : fracField x < 2 ^ 52 := (x.extractLsb' 0 52).isLt

/-- The three fields as parts of the pattern's number. -/
theorem toNat_eq_fields (x : F64) :
    x.toNat = (if signBit x then 1 else 0) * 2 ^ 63 + expField x * 2 ^ 52 + fracField x := by
  have h := x.isLt
  simp only [signBit, expField, fracField, BitVec.extractLsb'_toNat, BitVec.getLsbD,
    Nat.testBit_eq_decide_div_mod_eq, Nat.shiftRight_eq_div_pow]
  split <;> (rename_i hs; simp at hs; omega)

theorem expField_eq (x : F64) : expField x = x.toNat / 2 ^ 52 % 2 ^ 11 := by
  simp [expField, BitVec.extractLsb'_toNat, Nat.shiftRight_eq_div_pow]

theorem fracField_eq (x : F64) : fracField x = x.toNat % 2 ^ 52 := by
  simp [fracField, BitVec.extractLsb'_toNat]

theorem signBit_eq (x : F64) : signBit x = decide (2 ^ 63 ≤ x.toNat) := by
  have h := x.isLt
  simp only [signBit, BitVec.getLsbD, Nat.testBit_eq_decide_div_mod_eq]
  apply decide_eq_decide.mpr
  omega

/-- A pattern is its fields: equal fields, equal data. -/
theorem eq_of_fields {x y : F64} (hs : signBit x = signBit y) (he : expField x = expField y)
    (hf : fracField x = fracField y) : x = y := by
  apply BitVec.eq_of_toNat_eq
  rw [toNat_eq_fields x, toNat_eq_fields y, hs, he, hf]

theorem mkF64_toNat (s : Bool) {e f : Nat} (he : e < 2048) (hf : f < 2 ^ 52) :
    (mkF64 s e f).toNat = (if s then 1 else 0) * 2 ^ 63 + e * 2 ^ 52 + f := by
  simp only [mkF64, BitVec.toNat_append, BitVec.toNat_ofNat, BitVec.toNat_ofBool,
    Nat.mod_eq_of_lt hf, Nat.mod_eq_of_lt (show e < 2 ^ 11 from he)]
  rw [← Nat.shiftLeft_add_eq_or_of_lt hf, ← Nat.shiftLeft_add_eq_or_of_lt (show e < 2 ^ 11 from he)]
  simp only [Nat.shiftLeft_eq]
  cases s <;> simp; omega

@[simp] theorem signBit_mkF64 (s : Bool) {e f : Nat} (he : e < 2048) (hf : f < 2 ^ 52) :
    signBit (mkF64 s e f) = s := by
  rw [signBit_eq, mkF64_toNat s he hf]
  cases s <;> simp <;> omega

@[simp] theorem expField_mkF64 (s : Bool) {e f : Nat} (he : e < 2048) (hf : f < 2 ^ 52) :
    expField (mkF64 s e f) = e := by
  rw [expField_eq, mkF64_toNat s he hf]
  cases s <;> simp <;> omega

@[simp] theorem fracField_mkF64 (s : Bool) {e f : Nat} (he : e < 2048) (hf : f < 2 ^ 52) :
    fracField (mkF64 s e f) = f := by
  rw [fracField_eq, mkF64_toNat s he hf]
  cases s <;> simp <;> omega

/-- A datum rebuilt from its fields. -/
theorem mkF64_fields (x : F64) : mkF64 (signBit x) (expField x) (fracField x) = x :=
  eq_of_fields (signBit_mkF64 _ (expField_lt x) (fracField_lt x))
    (expField_mkF64 _ (expField_lt x) (fracField_lt x))
    (fracField_mkF64 _ (expField_lt x) (fracField_lt x))

/-! ### Negation -/

@[simp] theorem signBit_fneg (x : F64) : signBit (fneg x) = !signBit x := by
  simp [signBit, fneg]

@[simp] theorem expField_fneg (x : F64) : expField (fneg x) = expField x := by
  have h : (fneg x).extractLsb' 52 11 = x.extractLsb' 52 11 := by
    ext i hi
    have : 52 + i < 63 := by omega
    interval_cases i <;> simp [fneg]
  simp [expField, h]

@[simp] theorem fracField_fneg (x : F64) : fracField (fneg x) = fracField x := by
  have h : (fneg x).extractLsb' 0 52 = x.extractLsb' 0 52 := by
    ext i hi
    interval_cases i <;> simp [fneg]
  simp [fracField, h]

@[simp] theorem fneg_fneg (x : F64) : fneg (fneg x) = x := by
  apply eq_of_fields <;> simp

@[simp] theorem isNaN_fneg (x : F64) : isNaN (fneg x) = isNaN x := by simp [isNaN]
@[simp] theorem isInf_fneg (x : F64) : isInf (fneg x) = isInf x := by simp [isInf]
@[simp] theorem isZero_fneg (x : F64) : isZero (fneg x) = isZero x := by simp [isZero]
@[simp] theorem isFinite_fneg (x : F64) : isFinite (fneg x) = isFinite x := by simp [isFinite]
@[simp] theorem magUnits_fneg (x : F64) : magUnits (fneg x) = magUnits x := by simp [magUnits]

@[simp] theorem units_fneg (x : F64) : units (fneg x) = -units x := by
  simp only [units, signBit_fneg, magUnits_fneg]
  cases signBit x <;> simp

@[simp] theorem val_fneg (x : F64) : val (fneg x) = -val x := by
  simp [val, neg_div]

/-! ### Classes -/

theorem isFinite_of_not (x : F64) (hn : isNaN x = false) (hi : isInf x = false) :
    isFinite x = true := by
  have := expField_lt x
  simp only [isNaN, isInf, isFinite, Bool.and_eq_false_iff, beq_eq_false_iff_ne, bne_eq_false_iff_eq,
    decide_eq_true_eq, ne_eq] at *
  omega

theorem not_isNaN_of_isFinite {x : F64} (h : isFinite x = true) : isNaN x = false := by
  simp only [isFinite, decide_eq_true_eq] at h
  simp only [isNaN, Bool.and_eq_false_iff, beq_eq_false_iff_ne, ne_eq]
  left; omega

theorem not_isInf_of_isFinite {x : F64} (h : isFinite x = true) : isInf x = false := by
  simp only [isFinite, decide_eq_true_eq] at h
  simp only [isInf, Bool.and_eq_false_iff, beq_eq_false_iff_ne, ne_eq]
  left; omega

theorem not_isInf_of_isNaN {x : F64} (h : isNaN x = true) : isInf x = false := by
  simp only [isNaN, Bool.and_eq_true, beq_iff_eq, bne_iff_ne] at h
  simp [isInf, h]

theorem isFinite_of_isZero {x : F64} (h : isZero x = true) : isFinite x = true := by
  simp only [isZero, Bool.and_eq_true, beq_iff_eq] at h
  simp [isFinite, h]

theorem isZero_iff_magUnits {x : F64} : isZero x = true ↔ magUnits x = 0 := by
  simp only [isZero, magUnits, Bool.and_eq_true, beq_iff_eq]
  constructor
  · rintro ⟨he, hf⟩; simp [he, hf]
  · intro h
    split at h
    · exact ⟨‹_›, h⟩
    · simp at h
      exact absurd h (pow2_pos _).ne'

/-- An infinity is the infinity of its sign. -/
theorem eq_infOf {x : F64} (h : isInf x = true) : x = infOf (signBit x) := by
  simp only [isInf, Bool.and_eq_true, beq_iff_eq] at h
  rw [infOf, ← h.1, ← h.2, mkF64_fields]

/-- A zero is the zero of its sign. -/
theorem eq_zeroOf {x : F64} (h : isZero x = true) : x = zeroOf (signBit x) := by
  simp only [isZero, Bool.and_eq_true, beq_iff_eq] at h
  conv_lhs => rw [← mkF64_fields x, h.1, h.2]
  rfl

@[simp] theorem isNaN_zeroOf (s : Bool) : isNaN (zeroOf s) = false := by cases s <;> rfl
@[simp] theorem isNaN_infOf (s : Bool) : isNaN (infOf s) = false := by cases s <;> rfl
@[simp] theorem isInf_infOf (s : Bool) : isInf (infOf s) = true := by cases s <;> rfl
@[simp] theorem isInf_zeroOf (s : Bool) : isInf (zeroOf s) = false := by cases s <;> rfl
@[simp] theorem isZero_zeroOf (s : Bool) : isZero (zeroOf s) = true := by cases s <;> rfl
@[simp] theorem isFinite_zeroOf (s : Bool) : isFinite (zeroOf s) = true := by cases s <;> rfl
@[simp] theorem signBit_zeroOf (s : Bool) : signBit (zeroOf s) = s := by cases s <;> rfl
@[simp] theorem signBit_infOf (s : Bool) : signBit (infOf s) = s := by cases s <;> rfl
@[simp] theorem magUnits_zeroOf (s : Bool) : magUnits (zeroOf s) = 0 := by cases s <;> rfl

/-- Whatever is drawn is a NaN. -/
@[simp] theorem isNaN_nanPattern (b : BitVec 64) : isNaN (nanPattern b) = true := by
  have hf := fracField_lt b
  have h : (if fracField b = 0 then 2 ^ 51 else fracField b) < 2 ^ 52 := by split <;> omega
  simp only [isNaN, nanPattern, expField_mkF64 _ (by omega : 2047 < 2048) h,
    fracField_mkF64 _ (by omega : 2047 < 2048) h, Bool.and_eq_true, beq_self_eq_true, bne_iff_ne,
    true_and]
  split <;> omega

/-- Every NaN pattern can be drawn. -/
theorem nanPattern_of_isNaN {x : F64} (h : isNaN x = true) : nanPattern x = x := by
  simp only [isNaN, Bool.and_eq_true, beq_iff_eq, bne_iff_ne] at h
  rw [nanPattern, if_neg h.2, ← h.1, mkF64_fields]

@[simp] theorem isNaN_nanAt (s : State) (site : NanSite) : isNaN (s.nanAt site) = true :=
  isNaN_nanPattern _

/-! ### Units -/

/-- The magnitude of a finite datum is below 2^1024. -/
theorem magUnits_lt {x : F64} (h : isFinite x = true) : magUnits x < pow2 2098 := by
  have hf := fracField_lt x
  simp only [isFinite, decide_eq_true_eq] at h
  unfold magUnits
  split
  · exact lt_of_lt_of_le (b := pow2 52) (by rw [pow2_eq]; exact hf) (pow2_le (by omega))
  · calc (2 ^ 52 + fracField x) * pow2 (expField x - 1)
        < 2 ^ 53 * pow2 (expField x - 1) := Nat.mul_lt_mul_of_pos_right (by omega) (pow2_pos _)
      _ ≤ 2 ^ 53 * pow2 2045 := Nat.mul_le_mul_left _ (pow2_le (by omega))
      _ = pow2 2098 := by rw [show 2098 = 53 + 2045 by rfl, pow2_add]; rfl

/-- The encoder undoes the decoder: no bit of a finite datum is lost (R100, R102). -/
theorem ofMagUnits_magUnits {x : F64} (h : isFinite x = true) :
    ofMagUnits (signBit x) (magUnits x) = x := by
  have hf := fracField_lt x
  rw [ofMagUnits, if_neg (Nat.not_le.mpr (magUnits_lt h))]
  by_cases he : expField x = 0
  · rw [magUnits, if_pos he, if_pos hf, ← he, mkF64_fields]
  · have hm : magUnits x = (2 ^ 52 + fracField x) * pow2 (expField x - 1) := by
      rw [magUnits, if_neg he]
    have hpos := pow2_pos (expField x - 1)
    have hlog : Nat.log2 (magUnits x) = expField x - 1 + 52 := by
      rw [hm, pow2_eq]
      apply (Nat.log2_eq_iff (by positivity)).mpr
      constructor
      · rw [Nat.pow_add, Nat.mul_comm]
        exact Nat.mul_le_mul_right _ (by omega)
      · rw [show expField x - 1 + 52 + 1 = 53 + (expField x - 1) by omega, Nat.pow_add]
        exact Nat.mul_lt_mul_of_pos_right (by omega) (by positivity)
    have hge : ¬ magUnits x < 2 ^ 52 := by
      rw [hm]
      have := Nat.mul_le_mul (show 2 ^ 52 ≤ 2 ^ 52 + fracField x by omega) hpos
      omega
    rw [if_neg hge, hlog, hm, show expField x - 1 + 52 - 51 = expField x by omega,
      show expField x - 1 + 52 - 52 = expField x - 1 by omega, Nat.mul_div_cancel _ hpos,
      Nat.add_sub_cancel_left, mkF64_fields]

end Sys2Proof.Machine
end

