-- ==== Sys2Proof/Laws/Rounding.lean ====
section
/-! SUPPORT. What the encoder `ofMagUnits` and the rounding `rnd` can do (40_numerics.md R102): sign and
class of the result, the exact cases, and that `rnd` depends on the rational alone. -/

namespace Sys2Proof.Machine

/-! ### The encoder -/

theorem log2_bounds {m : Nat} (h : m ≠ 0) : pow2 (Nat.log2 m) ≤ m ∧ m < pow2 (Nat.log2 m + 1) := by
  simp only [pow2_eq]
  exact ⟨Nat.log2_self_le h, Nat.lt_log2_self⟩

theorem log2_ge {m k : Nat} (h : pow2 k ≤ m) : k ≤ Nat.log2 m := by
  rw [pow2_eq] at h
  exact (Nat.le_log2 (by have := Nat.two_pow_pos k; omega)).mpr h

theorem log2_lt {m k : Nat} (h0 : m ≠ 0) (h : m < pow2 k) : Nat.log2 m < k := by
  rw [pow2_eq] at h
  exact (Nat.log2_lt h0).mpr h

theorem ofMagUnits_big {s : Bool} {m : Nat} (h : pow2 2098 ≤ m) : ofMagUnits s m = infOf s := by
  rw [ofMagUnits, if_pos h]

theorem ofMagUnits_small {s : Bool} {m : Nat} (h : m < 2 ^ 52) : ofMagUnits s m = mkF64 s 0 m := by
  rw [ofMagUnits, if_neg, if_pos h]
  have : pow2 52 ≤ pow2 2098 := pow2_le (by omega)
  rw [show pow2 52 = 2 ^ 52 from rfl] at this
  omega

/-- The leading 53 bits of a number of at least 2^52. -/
theorem leading_bounds {m : Nat} (h : 2 ^ 52 ≤ m) :
    2 ^ 52 ≤ m / pow2 (Nat.log2 m - 52) ∧ m / pow2 (Nat.log2 m - 52) < 2 ^ 53 := by
  have hk : 52 ≤ Nat.log2 m := log2_ge h
  obtain ⟨hlo, hhi⟩ := log2_bounds (show m ≠ 0 by omega)
  have hpos := pow2_pos (Nat.log2 m - 52)
  constructor
  · rw [Nat.le_div_iff_mul_le hpos, show (2 ^ 52 : Nat) = pow2 52 from rfl, ← pow2_add]
    rwa [show 52 + (Nat.log2 m - 52) = Nat.log2 m by omega]
  · rw [Nat.div_lt_iff_lt_mul hpos, show (2 ^ 53 : Nat) = pow2 53 from rfl, ← pow2_add]
    rwa [show 53 + (Nat.log2 m - 52) = Nat.log2 m + 1 by omega]

/-- The fields of a normal result. -/
theorem ofMagUnits_normal {s : Bool} {m : Nat} (h : 2 ^ 52 ≤ m) (hm : m < pow2 2098) :
    signBit (ofMagUnits s m) = s ∧ expField (ofMagUnits s m) = Nat.log2 m - 51 ∧
      fracField (ofMagUnits s m) = m / pow2 (Nat.log2 m - 52) - 2 ^ 52 := by
  obtain ⟨hlo, hhi⟩ := leading_bounds h
  have hk : Nat.log2 m < 2098 := log2_lt (by omega) hm
  have he : Nat.log2 m - 51 < 2048 := by omega
  have hf : m / pow2 (Nat.log2 m - 52) - 2 ^ 52 < 2 ^ 52 := by omega
  rw [ofMagUnits, if_neg (Nat.not_le.mpr hm), if_neg (by omega)]
  exact ⟨signBit_mkF64 s he hf, expField_mkF64 s he hf, fracField_mkF64 s he hf⟩

@[simp] theorem signBit_ofMagUnits (s : Bool) (m : Nat) : signBit (ofMagUnits s m) = s := by
  rcases Nat.lt_or_ge m (2 ^ 52) with h | h
  · rw [ofMagUnits_small h, signBit_mkF64 _ (by omega) h]
  · rcases Nat.lt_or_ge m (pow2 2098) with hm | hm
    · exact (ofMagUnits_normal h hm).1
    · rw [ofMagUnits_big hm, signBit_infOf]

theorem isFinite_ofMagUnits {s : Bool} {m : Nat} (hm : m < pow2 2098) :
    isFinite (ofMagUnits s m) = true := by
  rcases Nat.lt_or_ge m (2 ^ 52) with h | h
  · rw [ofMagUnits_small h]
    simp [isFinite, expField_mkF64 s (by omega : 0 < 2048) h]
  · have hk : Nat.log2 m < 2098 := log2_lt (by omega) hm
    simp only [isFinite, (ofMagUnits_normal h hm).2.1, decide_eq_true_eq]
    omega

@[simp] theorem isNaN_ofMagUnits (s : Bool) (m : Nat) : isNaN (ofMagUnits s m) = false := by
  rcases Nat.lt_or_ge m (pow2 2098) with hm | hm
  · exact not_isNaN_of_isFinite (isFinite_ofMagUnits hm)
  · rw [ofMagUnits_big hm, isNaN_infOf]

/-- A magnitude of at most 53 significant bits is encoded exactly (R102 (3)). -/
theorem magUnits_ofMagUnits {s : Bool} {m : Nat} (hm : m < pow2 2098)
    (hr : pow2 (Nat.log2 m - 52) ∣ m) : magUnits (ofMagUnits s m) = m := by
  rcases Nat.lt_or_ge m (2 ^ 52) with h | h
  · rw [ofMagUnits_small h, magUnits, expField_mkF64 s (by omega : 0 < 2048) h, if_pos rfl,
      fracField_mkF64 s (by omega : 0 < 2048) h]
  · obtain ⟨-, he, hf⟩ := ofMagUnits_normal (s := s) h hm
    have hk : 52 ≤ Nat.log2 m := log2_ge h
    have hlo := (leading_bounds h).1
    rw [magUnits, he, hf, if_neg (by omega), show Nat.log2 m - 51 - 1 = Nat.log2 m - 52 by omega,
      Nat.add_sub_cancel' hlo, Nat.div_mul_cancel hr]

/-- Every finite datum has at most 53 significant bits. -/
theorem dvd_magUnits (x : F64) : pow2 (Nat.log2 (magUnits x) - 52) ∣ magUnits x := by
  have hf := fracField_lt x
  by_cases he : expField x = 0
  · have hm : magUnits x = fracField x := by rw [magUnits, if_pos he]
    have : Nat.log2 (magUnits x) - 52 = 0 := by
      by_cases h0 : magUnits x = 0
      · rw [h0]; rfl
      · have := log2_lt h0 (show magUnits x < pow2 52 by rw [hm]; exact hf)
        omega
    rw [this]
    exact ⟨magUnits x, by rw [show pow2 0 = 1 from rfl, Nat.one_mul]⟩
  · have hm : magUnits x = (2 ^ 52 + fracField x) * pow2 (expField x - 1) := by
      rw [magUnits, if_neg he]
    have hpos := pow2_pos (expField x - 1)
    have hlt : magUnits x < pow2 (53 + (expField x - 1)) := by
      rw [hm, pow2_add]
      exact Nat.mul_lt_mul_of_pos_right (by rw [show pow2 53 = 2 ^ 53 from rfl]; omega) hpos
    have hne : magUnits x ≠ 0 := by rw [hm]; positivity
    have := log2_lt hne hlt
    have hle : Nat.log2 (magUnits x) - 52 ≤ expField x - 1 := by omega
    have hd : pow2 (Nat.log2 (magUnits x) - 52) ∣ pow2 (expField x - 1) := by
      simp only [pow2_eq]; exact Nat.pow_dvd_pow 2 hle
    exact hd.trans ⟨2 ^ 52 + fracField x, by rw [hm, Nat.mul_comm]⟩

/-! ### The nearest integer -/

theorem nearestEven_mul (k : Nat) {d : Nat} (hd : 0 < d) : nearestEven (k * d) d = k := by
  simp [nearestEven, Nat.mul_mod_left, Nat.mul_div_cancel _ hd, hd]

/-- Scaling numerator and denominator alike changes nothing. -/
theorem nearestEven_scale (n d : Nat) {c : Nat} (hc : 0 < c) :
    nearestEven (n * c) (d * c) = nearestEven n d := by
  simp only [nearestEven, Nat.mul_mod_mul_right, Nat.mul_div_mul_right _ _ hc, ← Nat.mul_assoc,
    Nat.mul_lt_mul_right hc]

/-- The nearest integer is at most half a unit away, and even when exactly half. -/
theorem nearestEven_near (n : Nat) {d : Nat} (hd : 0 < d) :
    2 * n ≤ (2 * nearestEven n d + 1) * d ∧ (2 * nearestEven n d) * d ≤ 2 * n + d ∧
      ((2 * n = (2 * nearestEven n d + 1) * d ∨ (2 * nearestEven n d) * d = 2 * n + d) →
        nearestEven n d % 2 = 0) := by
  have hdm := Nat.div_add_mod n d
  have hlt := Nat.mod_lt n hd
  generalize hq : n / d = q at *
  generalize hr : n % d = r at *
  have e1 : (2 * q + 1) * d = 2 * (d * q) + d := by ring
  have e2 : (2 * (q + 1) + 1) * d = 2 * (d * q) + 3 * d := by ring
  have e3 : (2 * q) * d = 2 * (d * q) := by ring
  have e4 : (2 * (q + 1)) * d = 2 * (d * q) + 2 * d := by ring
  generalize d * q = w at *
  simp only [nearestEven, hq, hr]
  split_ifs <;> simp only [e1, e2, e3, e4] <;> refine ⟨?_, ?_, ?_⟩ <;> omega

theorem nearestEven_le {n d b : Nat} (hd : 0 < d) (h : n ≤ b * d) : nearestEven n d ≤ b := by
  have hdm := Nat.div_add_mod n d
  have hlt := Nat.mod_lt n hd
  have hq : n / d ≤ b := by
    have := Nat.div_le_div_right (c := d) h
    rwa [Nat.mul_div_cancel _ hd] at this
  rcases Nat.lt_or_ge (n / d) b with h' | h'
  · unfold nearestEven; split_ifs <;> omega
  · have : n / d = b := by omega
    have hz : n % d = 0 := by rw [this, Nat.mul_comm] at hdm; omega
    simp [nearestEven, hz, hd, this]

theorem le_nearestEven (n d : Nat) : n / d ≤ nearestEven n d := by
  unfold nearestEven; split_ifs <;> omega

/-! ### Rounding -/

@[simp] theorem isNaN_rnd (s : Bool) (n d : Nat) : isNaN (rnd s n d) = false := isNaN_ofMagUnits _ _

@[simp] theorem signBit_rnd (s : Bool) (n d : Nat) : signBit (rnd s n d) = s := signBit_ofMagUnits _ _

/-- `rnd` depends on the rational alone, not on the fraction that writes it (R102). -/
theorem rnd_scale (s : Bool) (n d : Nat) {c : Nat} (hc : 0 < c) : rnd s (n * c) (d * c) = rnd s n d := by
  have h1 : n * c * pow2 1074 = n * pow2 1074 * c := Nat.mul_right_comm _ _ _
  have h2 (k : Nat) : d * c * k = d * k * c := Nat.mul_right_comm _ _ _
  simp only [rnd, h1, h2, nearestEven_scale _ _ hc, Nat.mul_div_mul_right _ _ hc]

theorem rnd_congr (s : Bool) {n d n' d' : Nat} (hd : 0 < d) (hd' : 0 < d') (h : n * d' = n' * d) :
    rnd s n d = rnd s n' d' := by
  rw [← rnd_scale s n d hd', ← rnd_scale s n' d' hd, h, Nat.mul_comm d d']

/-- A representable magnitude is not rounded: the datum comes back (R102). -/
theorem rnd_of_magUnits {x : F64} {n d : Nat} (hd : 0 < d)
    (h : n * pow2 1074 = magUnits x * d) (s : Bool) : rnd s n d = ofMagUnits s (magUnits x) := by
  obtain ⟨c, hc⟩ := dvd_magUnits x
  have hp := pow2_pos (Nat.log2 (magUnits x) - 52)
  have hq : magUnits x * d / d = magUnits x := Nat.mul_div_cancel _ hd
  have hmul : magUnits x * d = c * (d * pow2 (Nat.log2 (magUnits x) - 52)) := by
    conv_lhs => rw [hc]
    ring
  simp only [rnd, h, hq]
  rw [hmul, nearestEven_mul c (Nat.mul_pos hd hp), Nat.mul_comm c, ← hc]

theorem rnd_self {x : F64} (hx : isFinite x = true) :
    rnd (signBit x) (magUnits x) (pow2 1074) = x := by
  rw [rnd_of_magUnits (pow2_pos 1074) rfl, ofMagUnits_magUnits hx]

/-- The rounded magnitude in units of 2^-1074, before the overflow check (R102 (2), (3)). -/
def rndUnits (n d : Nat) : Nat :=
  nearestEven (n * pow2 1074) (d * pow2 (Nat.log2 (n * pow2 1074 / d) - 52)) *
    pow2 (Nat.log2 (n * pow2 1074 / d) - 52)

theorem rnd_eq (s : Bool) (n d : Nat) : rnd s n d = ofMagUnits s (rndUnits n d) := rfl

/-- The rounded magnitude has at most 53 significant bits. -/
theorem dvd_rndUnits (n : Nat) {d : Nat} (hd : 0 < d) :
    pow2 (Nat.log2 (rndUnits n d) - 52) ∣ rndUnits n d := by
  generalize hj : Nat.log2 (n * pow2 1074 / d) - 52 = j
  have hu : rndUnits n d = nearestEven (n * pow2 1074) (d * pow2 j) * pow2 j := by
    rw [rndUnits, hj]
  have hpos := pow2_pos j
  have hle : nearestEven (n * pow2 1074) (d * pow2 j) ≤ 2 ^ 53 := by
    apply nearestEven_le (Nat.mul_pos hd hpos)
    by_cases h0 : n * pow2 1074 / d = 0
    · have := Nat.lt_of_div_eq_zero hd h0
      have h1 : d ≤ 2 ^ 53 * (d * pow2 j) := by
        calc d = 1 * (d * 1) := by ring
          _ ≤ 2 ^ 53 * (d * pow2 j) := Nat.mul_le_mul (by omega) (Nat.mul_le_mul_left _ hpos)
      exact le_trans (Nat.le_of_lt this) h1
    · have hlt := (log2_bounds h0).2
      have h2 : pow2 (Nat.log2 (n * pow2 1074 / d) + 1) ≤ 2 ^ 53 * pow2 j := by
        rw [show (2 ^ 53 : Nat) = pow2 53 from rfl, ← pow2_add]
        exact pow2_le (by omega)
      have h3 := (Nat.div_lt_iff_lt_mul hd).mp (lt_of_lt_of_le hlt h2)
      calc n * pow2 1074 ≤ 2 ^ 53 * pow2 j * d := Nat.le_of_lt h3
        _ = 2 ^ 53 * (d * pow2 j) := by ring
  rw [hu]
  generalize nearestEven (n * pow2 1074) (d * pow2 j) = r at hle
  by_cases hr0 : r = 0
  · simp [hr0]
  rcases Nat.lt_or_eq_of_le hle with hr | hr
  · have hne : r * pow2 j ≠ 0 := Nat.mul_ne_zero hr0 hpos.ne'
    have hlog : Nat.log2 (r * pow2 j) < 53 + j := by
      apply log2_lt hne
      rw [pow2_add]
      exact Nat.mul_lt_mul_of_pos_right hr hpos
    have hd' : pow2 (Nat.log2 (r * pow2 j) - 52) ∣ pow2 j := by
      simp only [pow2_eq] at hlog ⊢; exact Nat.pow_dvd_pow 2 (by omega)
    exact hd'.trans ⟨r, Nat.mul_comm _ _⟩
  · have he : r * pow2 j = pow2 (53 + j) := by rw [hr, pow2_add]; rfl
    rw [he]
    simp only [pow2_eq, Nat.log2_two_pow]
    exact Nat.pow_dvd_pow 2 (by omega)

/-- Unless it overflows, the rounded value is exactly the rounded magnitude. -/
theorem magUnits_rnd (s : Bool) (n : Nat) {d : Nat} (hd : 0 < d) (h : rndUnits n d < pow2 2098) :
    isFinite (rnd s n d) = true ∧ magUnits (rnd s n d) = rndUnits n d := by
  rw [rnd_eq]
  exact ⟨isFinite_ofMagUnits h, magUnits_ofMagUnits h (dvd_rndUnits n hd)⟩

end Sys2Proof.Machine
end

