-- ==== Sys2Proof/Laws/Arith.lean ====
section
/-! SUPPORT. What each binary64 primitive can answer (40_numerics.md R103 to R107): where it draws a NaN,
what it does with finite data, and that the NaN bits of operands never matter. -/

namespace Sys2Proof.Machine

/-! ### Finite operands -/

theorem isZero_eq_false_iff {x : F64} : isZero x = false ↔ magUnits x ≠ 0 := by
  rw [← Bool.not_eq_true, isZero_iff_magUnits]

theorem units_eq_zero_iff {x : F64} : units x = 0 ↔ isZero x = true := by
  rw [isZero_iff_magUnits, units]
  split <;> omega

/-- The sum of two finite data, R103 (d) and (e). -/
theorem fadd_finite {x y : F64} (nan : F64) (hx : isFinite x = true) (hy : isFinite y = true) :
    fadd nan x y =
      if isZero x && isZero y then (if signBit x = signBit y then x else zeroOf false)
      else if units x + units y = 0 then zeroOf false
      else rnd (decide (units x + units y < 0)) (units x + units y).natAbs (pow2 1074) := by
  simp only [fadd, not_isNaN_of_isFinite hx, not_isNaN_of_isFinite hy, not_isInf_of_isFinite hx,
    not_isInf_of_isFinite hy, Bool.or_false, Bool.and_false, Bool.false_eq_true, if_false]

/-- The product of two finite data, R105 (d) and (e). -/
theorem fmul_finite {x y : F64} (nan : F64) (hx : isFinite x = true) (hy : isFinite y = true) :
    fmul nan x y =
      if isZero x || isZero y then zeroOf (signBit x != signBit y)
      else rnd (signBit x != signBit y) (magUnits x * magUnits y) (pow2 2148) := by
  simp only [fmul, not_isNaN_of_isFinite hx, not_isNaN_of_isFinite hy, not_isInf_of_isFinite hx,
    not_isInf_of_isFinite hy, Bool.or_false, Bool.and_false, Bool.false_and, Bool.false_eq_true,
    if_false]

/-- Finite operands never give a NaN, so the drawn pattern plays no part (R103, R105). -/
theorem isNaN_fadd_finite {x y : F64} (nan : F64) (hx : isFinite x = true) (hy : isFinite y = true) :
    isNaN (fadd nan x y) = false := by
  rw [fadd_finite nan hx hy]
  split_ifs <;> simp [not_isNaN_of_isFinite hx]

theorem isNaN_fmul_finite {x y : F64} (nan : F64) (hx : isFinite x = true) (hy : isFinite y = true) :
    isNaN (fmul nan x y) = false := by
  rw [fmul_finite nan hx hy]
  split_ifs <;> simp

theorem fmul_finite_nan_irrelevant {x y : F64} (nan nan' : F64) (hx : isFinite x = true)
    (hy : isFinite y = true) : fmul nan x y = fmul nan' x y := by
  rw [fmul_finite nan hx hy, fmul_finite nan' hx hy]

/-! ### NaN operands -/

theorem fadd_of_isNaN_left {x : F64} (nan y : F64) (h : isNaN x = true) : fadd nan x y = nan := by
  simp [fadd, h]

theorem fadd_of_isNaN_right {y : F64} (nan x : F64) (h : isNaN y = true) : fadd nan x y = nan := by
  simp [fadd, h]

theorem fsub_of_isNaN_left {x : F64} (nan y : F64) (h : isNaN x = true) : fsub nan x y = nan :=
  fadd_of_isNaN_left nan _ h

theorem fsub_of_isNaN_right {y : F64} (nan x : F64) (h : isNaN y = true) : fsub nan x y = nan :=
  fadd_of_isNaN_right nan x (by simp [h])

theorem fmul_of_isNaN_left {x : F64} (nan y : F64) (h : isNaN x = true) : fmul nan x y = nan := by
  simp [fmul, h]

theorem fmul_of_isNaN_right {y : F64} (nan x : F64) (h : isNaN y = true) : fmul nan x y = nan := by
  simp [fmul, h]

theorem ffloor_of_isNaN {x : F64} (nan : F64) (h : isNaN x = true) : ffloor nan x = nan := by
  simp [ffloor, h]

theorem flt_of_isNaN_left {x : F64} (y : F64) (h : isNaN x = true) : flt x y = false := by
  simp [flt, h]

theorem flt_of_isNaN_right {y : F64} (x : F64) (h : isNaN y = true) : flt x y = false := by
  simp [flt, h]

theorem feq_of_isNaN_left {x : F64} (y : F64) (h : isNaN x = true) : feq x y = false := by
  simp [feq, h]

/-! ### The bits of a NaN never matter (R100, R108) -/

theorem SameUpToNaN.refl (x : F64) : SameUpToNaN x x := .inl rfl

theorem SameUpToNaN.isNaN_eq {x y : F64} (h : SameUpToNaN x y) : isNaN x = isNaN y := by
  rcases h with rfl | ⟨hx, hy⟩
  · rfl
  · rw [hx, hy]

theorem SameUpToNaN.fneg {x y : F64} (h : SameUpToNaN x y) :
    SameUpToNaN (Machine.fneg x) (Machine.fneg y) := by
  rcases h with rfl | ⟨hx, hy⟩
  · exact .inl rfl
  · exact .inr ⟨by simp [hx], by simp [hy]⟩

/-- A primitive drawn twice on the same data differs only where both answers are the draws. -/
theorem fadd_draw {n n' : F64} (hn : isNaN n = true) (hn' : isNaN n' = true) (x y : F64) :
    SameUpToNaN (fadd n x y) (fadd n' x y) := by
  unfold fadd
  split_ifs <;> first | exact .inl rfl | exact .inr ⟨hn, hn'⟩

theorem fmul_draw {n n' : F64} (hn : isNaN n = true) (hn' : isNaN n' = true) (x y : F64) :
    SameUpToNaN (fmul n x y) (fmul n' x y) := by
  unfold fmul
  split_ifs <;> first | exact .inl rfl | exact .inr ⟨hn, hn'⟩

theorem ffloor_draw {n n' : F64} (hn : isNaN n = true) (hn' : isNaN n' = true) (x : F64) :
    SameUpToNaN (ffloor n x) (ffloor n' x) := by
  unfold ffloor
  split_ifs <;> first | exact .inl rfl | exact .inr ⟨hn, hn'⟩

theorem fadd_sameUpToNaN {n n' x x' y y' : F64} (hn : isNaN n = true) (hn' : isNaN n' = true)
    (hx : SameUpToNaN x x') (hy : SameUpToNaN y y') : SameUpToNaN (fadd n x y) (fadd n' x' y') := by
  rcases hx with rfl | ⟨hx, hx'⟩
  · rcases hy with rfl | ⟨hy, hy'⟩
    · exact fadd_draw hn hn' x y
    · exact .inr ⟨by rwa [fadd_of_isNaN_right _ _ hy], by rwa [fadd_of_isNaN_right _ _ hy']⟩
  · exact .inr ⟨by rwa [fadd_of_isNaN_left _ _ hx], by rwa [fadd_of_isNaN_left _ _ hx']⟩

theorem fsub_sameUpToNaN {n n' x x' y y' : F64} (hn : isNaN n = true) (hn' : isNaN n' = true)
    (hx : SameUpToNaN x x') (hy : SameUpToNaN y y') : SameUpToNaN (fsub n x y) (fsub n' x' y') :=
  fadd_sameUpToNaN hn hn' hx hy.fneg

theorem fmul_sameUpToNaN {n n' x x' y y' : F64} (hn : isNaN n = true) (hn' : isNaN n' = true)
    (hx : SameUpToNaN x x') (hy : SameUpToNaN y y') : SameUpToNaN (fmul n x y) (fmul n' x' y') := by
  rcases hx with rfl | ⟨hx, hx'⟩
  · rcases hy with rfl | ⟨hy, hy'⟩
    · exact fmul_draw hn hn' x y
    · exact .inr ⟨by rwa [fmul_of_isNaN_right _ _ hy], by rwa [fmul_of_isNaN_right _ _ hy']⟩
  · exact .inr ⟨by rwa [fmul_of_isNaN_left _ _ hx], by rwa [fmul_of_isNaN_left _ _ hx']⟩

theorem ffloor_sameUpToNaN {n n' x x' : F64} (hn : isNaN n = true) (hn' : isNaN n' = true)
    (hx : SameUpToNaN x x') : SameUpToNaN (ffloor n x) (ffloor n' x') := by
  rcases hx with rfl | ⟨hx, hx'⟩
  · exact ffloor_draw hn hn' x
  · exact .inr ⟨by rwa [ffloor_of_isNaN _ hx], by rwa [ffloor_of_isNaN _ hx']⟩

theorem flt_sameUpToNaN {x x' y y' : F64} (hx : SameUpToNaN x x') (hy : SameUpToNaN y y') :
    flt x y = flt x' y' := by
  rcases hx with rfl | ⟨hx, hx'⟩
  · rcases hy with rfl | ⟨hy, hy'⟩
    · rfl
    · rw [flt_of_isNaN_right _ hy, flt_of_isNaN_right _ hy']
  · rw [flt_of_isNaN_left _ hx, flt_of_isNaN_left _ hx']

end Sys2Proof.Machine
end

