-- ==== Sys2Proof/Laws/State.lean ====
section
/-! SUPPORT. One lemma per field per update of State, so that no proof unfolds a record update. -/

namespace Sys2Proof.Machine

@[simp] theorem State.drive_req (s : State) (w : Word) : (s.drive w).req = s.req := rfl
@[simp] theorem State.drive_res (s : State) (w : Word) : (s.drive w).res = w := rfl
@[simp] theorem State.drive_draw (s : State) (w : Word) : (s.drive w).draw = s.draw := rfl

@[simp] theorem State.settle_req (s : State) : s.settle.req = s.req := rfl
@[simp] theorem State.settle_res (s : State) : s.settle.res = s.portValue := rfl
@[simp] theorem State.settle_draw (s : State) : s.settle.draw = s.draw := rfl

@[simp] theorem State.present_req (s : State) (r : Request) (draw : Nat) :
    (s.present r draw).req = r := rfl
@[simp] theorem State.present_draw (s : State) (r : Request) (draw : Nat) :
    (s.present r draw).draw = draw := rfl

@[simp] theorem State.opnd0_eq (s : State) : s.opnd0 = s.req.a0 := rfl
@[simp] theorem State.opnd1_eq (s : State) : s.opnd1 = s.req.a1 := rfl
@[simp] theorem State.opnd2_eq (s : State) : s.opnd2 = s.req.a2 := rfl
@[simp] theorem State.opnd3_eq (s : State) : s.opnd3 = s.req.a3 := rfl

end Sys2Proof.Machine
end

