-- ==== Sys2Proof/Laws/Exec.lean ====
section
/-! SUPPORT. Everything an evaluation can do, said once: each meaning drives `res` with `Eval` of the
request and changes nothing else (10_state.md R22). -/

namespace Sys2Proof.Machine

/-- The state after an operation. -/
def State.after (s : State) (i : Instr) : State :=
  { s with res := eval s.nanAt i s.req }

@[simp] theorem State.after_req (s : State) (i : Instr) : (s.after i).req = s.req := rfl

@[simp] theorem State.after_res (s : State) (i : Instr) :
    (s.after i).res = eval s.nanAt i s.req := rfl

/-- Every operation answers a next state: `Eval` of the request on `res` (R22, R66). -/
theorem exec_eq_after (i : Instr) (s : State) : exec i s = .next (s.after i) := by
  cases i <;> rfl

/-- A step on an assigned code is that operation. -/
theorem step_of_decode {s : State} {i : Instr} (h : decodeOp s.req.op = .ok i) :
    step s = exec i s := by
  simp only [step, h]

/-- The only error of the decoder is a reserved code, named by itself (R67). -/
theorem decodeOp_error {op : BitVec 4} {e : DecodeError} (h : decodeOp op = .error e) :
    e = .reservedOp op ∧ 14 ≤ op.toNat := by
  unfold decodeOp at h
  split at h <;> simp only [reduceCtorEq, Except.error.injEq] at h
  refine ⟨h.symm, ?_⟩
  by_contra hlt
  interval_cases hv : op.toNat <;> simp_all

/-- Inversion: a step evaluates an assigned request or refuses a reserved code; nothing else. -/
theorem step_cases (s : State) :
    (∃ i, decodeOp s.req.op = .ok i ∧ step s = .next (s.after i)) ∨
      (14 ≤ s.req.op.toNat ∧ step s = .refused (.reservedOp s.req.op)) := by
  cases h : decodeOp s.req.op with
  | ok i => exact .inl ⟨i, rfl, by rw [step_of_decode h, exec_eq_after]⟩
  | error e =>
    obtain ⟨rfl, hop⟩ := decodeOp_error h
    exact .inr ⟨hop, by simp only [step, h]⟩

/-- What `res` carries for an assigned code (R22, R263). -/
theorem State.portValue_of_decode {s : State} {i : Instr} (h : decodeOp s.req.op = .ok i) :
    s.portValue = eval s.nanAt i s.req := by
  simp only [State.portValue, h]

/-- The step of an assigned request answers with the ports settled. -/
theorem step_eq_settle {s : State} {i : Instr} (h : decodeOp s.req.op = .ok i) :
    step s = .next s.settle := by
  rw [step_of_decode h, exec_eq_after, State.settle, State.portValue_of_decode h]
  rfl

theorem State.settled_settle (s : State) : s.settle.Settled := rfl

theorem State.settled_present (s : State) (r : Request) (draw : Nat) :
    (s.present r draw).Settled := rfl

/-- Nothing of what the ports carried before a request is left (R20). -/
theorem State.present_forgets (s t : State) (r : Request) (draw : Nat) :
    s.present r draw = t.present r draw := rfl

theorem State.settle_eq_self {s : State} (h : s.Settled) : s.settle = s := by
  unfold State.settle State.drive
  rw [← show s.res = s.portValue from h]

/-- A step on settled ports changes nothing (R43, R263). -/
theorem step_of_settled {s : State} {i : Instr} (h : decodeOp s.req.op = .ok i) (hs : s.Settled) :
    step s = .next s := by
  rw [step_eq_settle h, State.settle_eq_self hs]

/-- The ports at reset are settled: `res` has no value of its own (R32). -/
theorem State.reset_settled : State.reset.Settled := rfl

end Sys2Proof.Machine
end

