-- ==== Sys2Proof/Laws/PerInstr.lean ====
section
/-! SUPPORT. Per-operation facts about names and operand counts (30_encoding.md R62, R69). -/

namespace Sys2Proof.Laws.Naming

open Sys2Proof

/-- The mnemonic names the operation and no other, and the operation reads one to four ports. -/
def Statement (i : Instr) : Prop :=
  instrOfMnemonic (mnemonic i) = some i ∧ 1 ≤ arity i ∧ arity i ≤ 4

theorem mix : Statement .mix := by unfold Statement; decide
theorem hash1 : Statement .hash1 := by unfold Statement; decide
theorem hash2 : Statement .hash2 := by unfold Statement; decide
theorem hash3 : Statement .hash3 := by unfold Statement; decide
theorem hash4 : Statement .hash4 := by unfold Statement; decide
theorem unit1 : Statement .unit1 := by unfold Statement; decide
theorem unit2 : Statement .unit2 := by unfold Statement; decide
theorem unit3 : Statement .unit3 := by unfold Statement; decide
theorem unit4 : Statement .unit4 := by unfold Statement; decide
theorem hslr : Statement .hslr := by unfold Statement; decide
theorem hslg : Statement .hslg := by unfold Statement; decide
theorem hslb : Statement .hslb := by unfold Statement; decide
theorem argb3 : Statement .argb3 := by unfold Statement; decide
theorem argb4 : Statement .argb4 := by unfold Statement; decide

end Sys2Proof.Laws.Naming
end

