-- ==== Sys2Proof/Tests/Slice0.lean ====
section
/-! SUPPORT. Tests of the model against the spec's own words and vectors (95_test_vectors.md,
96_test_vectors_colour.md), and a witness for the hypotheses of each statement. -/

namespace Sys2Proof.Tests

open Sys2Proof Sys2Proof.Machine

/-- The ports carrying a request, with nothing on `res` yet. -/
def ports (op : BitVec 4) (a0 a1 a2 a3 : Word) : State :=
  { req := { op := op, a0 := a0, a1 := a1, a2 := a2, a3 := a3 }, res := 0, draw := 0 }

/-- The result a step answers with. -/
def answer (o : Host.Outcome State Fault Refusal) : Option Word :=
  match o with
  | .next t => some t.res
  | .fault _ => none
  | .refused _ => none

/-- One allowed choice of NaN patterns. -/
def quietNan : NanSite → F64 := fun _ => 0x7FF8000000000000

theorem quietNan_choice : NanChoice quietNan := by
  intro _
  show isNaN 0x7FF8000000000000 = true
  decide

/-! ### Well-formedness: each check refuses an ill-formed term -/

theorem test_wf_refuses_reserved_code : Request.wellFormed ⟨14, 0, 0, 0, 0⟩ = false := by decide
theorem test_wf_accepts_last_code : Request.wellFormed ⟨13, 0, 0, 0, 0⟩ = true := by decide
theorem test_wf_refuses_operand_count :
    Line.wellFormed [] ⟨['h'], .hash2, [.bits 0]⟩ = false := by decide
theorem test_wf_refuses_unknown_label :
    wellFormedLines [] [⟨['h'], .hash1, [.label ['u']]⟩] = false := by decide
theorem test_wf_accepts_earlier_label :
    wellFormedLines [] [⟨['u'], .mix, [.bits 1]⟩, ⟨['h'], .hash1, [.label ['u']]⟩] = true := by decide

/-! ### Decoding: the nibble of every row, written out from 30_encoding.md R62 -/

theorem test_decode_mix : decodeOp 0b0000#4 = .ok .mix := rfl
theorem test_decode_hash1 : decodeOp 0b0001#4 = .ok .hash1 := rfl
theorem test_decode_hash2 : decodeOp 0b0010#4 = .ok .hash2 := rfl
theorem test_decode_hash3 : decodeOp 0b0011#4 = .ok .hash3 := rfl
theorem test_decode_hash4 : decodeOp 0b0100#4 = .ok .hash4 := rfl
theorem test_decode_unit1 : decodeOp 0b0101#4 = .ok .unit1 := rfl
theorem test_decode_unit2 : decodeOp 0b0110#4 = .ok .unit2 := rfl
theorem test_decode_unit3 : decodeOp 0b0111#4 = .ok .unit3 := rfl
theorem test_decode_unit4 : decodeOp 0b1000#4 = .ok .unit4 := rfl
theorem test_decode_hslr : decodeOp 0b1001#4 = .ok .hslr := rfl
theorem test_decode_hslg : decodeOp 0b1010#4 = .ok .hslg := rfl
theorem test_decode_hslb : decodeOp 0b1011#4 = .ok .hslb := rfl
theorem test_decode_argb3 : decodeOp 0b1100#4 = .ok .argb3 := rfl
theorem test_decode_argb4 : decodeOp 0b1101#4 = .ok .argb4 := rfl
theorem test_decode_reserved_14 : decodeOp 0b1110#4 = .error (.reservedOp 14) := rfl
theorem test_decode_reserved_15 : decodeOp 0b1111#4 = .error (.reservedOp 15) := rfl
theorem test_decode_table_word : decodeTableWord 8 0xD = some .argb4 := by decide
theorem test_decode_table_word_reserved : decodeTableWord 8 0xE = none := by decide

/-- The flat word of request `r` of 95_test_vectors.md V7.1. -/
theorem test_encode_flat_word :
    encodeFlat ⟨9, 0x3FB7FC81398323F0, 0x3FF0000000000000, 0x3FE0000000000000, 0⟩ =
      0x900000000000000003FE00000000000003FF00000000000003FB7FC81398323F0#260 := by
  decide +kernel

/-! ### One step of every operation -/

/-- V2.1, the general row. -/
theorem test_step_mix : answer (step (ports 0 0x0123456789ABCDEF 0 0 0)) = some 0x70F571FC3EE9BD2C := by
  decide

/-- V2.2, -1.0. -/
theorem test_step_hash1 : answer (step (ports 1 0xBFF0000000000000 0 0 0)) = some 0x014B797751E3D7CB := by
  decide

/-- V2.3, `HASH2 0.5, -1.0`, the unread ports carrying ones. -/
theorem test_step_hash2 : answer (step (ports 2 0x3FE0000000000000 0xBFF0000000000000
    0xFFFFFFFFFFFFFFFF 0xFFFFFFFFFFFFFFFF)) = some 0xDA62133A83B2F228 := by decide

/-- V2.3, `HASH3 3.0, 2.0, 1.0`. -/
theorem test_step_hash3 : answer (step (ports 3 0x4008000000000000 0x4000000000000000
    0x3FF0000000000000 0)) = some 0xC27F300EEEF0CE1E := by decide

/-- V2.3, special operands. -/
theorem test_step_hash4 : answer (step (ports 4 0xFFF0000000000000 0x0000000000000001
    0x7FF8000000000001 0x8000000000000000)) = some 0xCFFFDD4C40D5C3E5 := by decide

/-- V3.2, where the two readings of `CVT_RM` differ. -/
theorem test_step_unit1 : answer (step (ports 5 0x3FF0000000000000 0 0 0)) = some 0x3FBED2A3FFA5C1B5 := by
  decide +kernel

/-- V3.2, a hash with its sign bit set. -/
theorem test_step_unit2 : answer (step (ports 6 0x3FF0000000000000 0x4000000000000000 0 0)) =
    some 0x3FB7FC81398323F0 := by decide +kernel

/-- V3.2. -/
theorem test_step_unit3 : answer (step (ports 7 0x4008000000000000 0x4000000000000000
    0x3FF0000000000000 0)) = some 0x3FE09FCC03BBBC33 := by decide +kernel

/-- V3.2. -/
theorem test_step_unit4 : answer (step (ports 8 0x4010000000000000 0x4008000000000000
    0x4000000000000000 0x3FF0000000000000)) = some 0x3FE5934CEC175FCA := by decide +kernel

/-- V4.2, branch A with a rounded sum. -/
theorem test_step_hslr_ramp_up : answer (step (ports 9 0x3FE8000000000000 0x3FE0000000000000
    0x3FE8000000000000 0)) = some 0x3FE7FFFFFFFFFFFF := by decide +kernel

/-- V8, the grouping of `q`. -/
theorem test_step_hslr_grouping : answer (step (ports 9 0x0000000000000000 0x3FECCCCCCCCCCCCD
    0x3FE6666666666666 0)) = some 0x3FEF0A3D70A3D70B := by decide +kernel

/-- V8, the association of the ramp's products. -/
theorem test_step_hslg_association : answer (step (ports 10 0x3FB999999999999A 0x3FECCCCCCCCCCCCD
    0x3FE0000000000000 0)) = some 0x3FE2E147AE147AE1 := by decide +kernel

/-- V4.2, the boundary 1/2. -/
theorem test_step_hslg_half : answer (step (ports 10 0x3FE0000000000000 0x3FF0000000000000
    0x3FE0000000000000 0)) = some 0x3FEFFFFFFFFFFFFE := by decide +kernel

/-- V4.2, hue -3.0: branch C by one unit in the last place. -/
theorem test_step_hslb_negative_hue : answer (step (ports 11 0xC008000000000000 0x3FF0000000000000
    0x3FE0000000000000 0)) = some 0x3CC8000000000000 := by decide +kernel

/-- V1.5, sixth row: a NaN lightness passes through with its payload. -/
theorem test_step_hslb_nan_passes : answer (step (ports 11 0x3FD3333333333333 0x0000000000000000
    0x7FF8000000000123 0)) = some 0x7FF8000000000123 := by decide +kernel

/-- V5.2, the boundary bytes. -/
theorem test_step_argb3 : answer (step (ports 12 0x8000000000000000 0x3FEFDFFFFFFFFFFF
    0x3F6FFFFFFFFFFFFF 0)) = some 0x00000000FF00FE00 := by decide +kernel

/-- V8, truncation and not rounding. -/
theorem test_step_argb3_truncates : answer (step (ports 12 0x3FDFF00000000000 0 0 0)) =
    some 0x00000000FF7F0000 := by decide +kernel

/-- V5.2, NaN and infinite channels. -/
theorem test_step_argb4_special : answer (step (ports 13 0x7FF8000000000000 0x7FF0000000000000
    0xFFF0000000000000 0x7FF8000000000000)) = some 0x000000000000FF00 := by decide +kernel

/-- V5.2, four different bytes. -/
theorem test_step_argb4 : answer (step (ports 13 0x3FD0000000000000 0x3FE0000000000000
    0x3FE8000000000000 0x3FE0000000000000)) = some 0x00000000804080C0 := by decide +kernel

/-- 30_encoding.md R67: a reserved code is refused by name. -/
theorem test_step_reserved : step (ports 14 0 0 0 0) = .refused (.reservedOp 14) := rfl

/-! ### Witnesses: the hypotheses of each statement can be met -/

theorem test_witness_OpAloneSelectsTheOperation :
    (13#4).toNat < 14 ∧ 14 ≤ (14#4).toNat ∧ (ports 13 0 0 0 0).req.op = 13#4 ∧ 4 ≤ 8 := by decide

/-- Log entry 7's boundary: a byte whose upper half is not zero, and three bits. -/
theorem test_witness_TableWordsCountByTheirLowFourBits :
    decodeTableWord 8 0xF5 = some .unit1 ∧ decodeTableWord 4 0xD = some .argb4 ∧
    decodeTableWord 3 0x5 = none := by decide

theorem test_witness_FlatRequestRoundTrip :
    decodeFlat (0x60000000000000000000000000000000040000000000000003FF0000000000000#260) =
      .ok (.unit2, ⟨6, 0x3FF0000000000000, 0x4000000000000000, 0, 0⟩) := by
  have h : requestOfFlat (0x60000000000000000000000000000000040000000000000003FF0000000000000#260) =
      ⟨6, 0x3FF0000000000000, 0x4000000000000000, 0, 0⟩ := by decide +kernel
  simp only [decodeFlat, h]
  rfl

theorem test_witness_ExactlyReservedCodesAreRefused :
    step (ports 15 1 2 3 4) = .refused (.reservedOp 15) := rfl

theorem test_witness_StepEvaluatesTheDecodedOperation :
    decodeOp (ports 9 1 2 3 4).req.op = .ok .hslr := rfl

theorem test_witness_EveryAssignedRequestIsAnswered : (ports 13 1 2 3 4).req.op.toNat < 14 := by decide

/-- An unsettled state is mended by a request; a reserved code on the inputs is refused. -/
theorem test_witness_ResultFollowsTheInputs :
    (ports 0 1 2 3 4).res = 0 ∧
    (((ports 0 1 2 3 4).present ⟨0, 1, 2, 3, 4⟩ 5).res = 0x0000000002200011) ∧
    decodeOp (0#4) = .ok .mix ∧ State.reset.Settled ∧
    step ((ports 0 1 2 3 4).present ⟨15, 1, 2, 3, 4⟩ 5) = .refused (.reservedOp 15) :=
  ⟨rfl, by decide, rfl, rfl, rfl⟩

theorem test_witness_EvaluationWritesOnlyTheResultPort :
    exec .mix (ports 0 1 2 3 4) = .next { ports 0 1 2 3 4 with res := mix 1 } ∧
    exec .hslr (ports 9 1 2 3 4) = .next { ports 9 1 2 3 4 with
      res := hsl (ports 9 1 2 3 4).nanAt .red 1 2 3 } := by
  constructor <;> simp only [exec, execMix, execHslr, ports, State.drive,
    State.opnd0, State.opnd1, State.opnd2]

theorem test_witness_UnreadPortsDoNotMatter :
    (ports 12 1 2 3 4).draw = (ports 13 1 2 3 5).draw ∧
    (ports 12 1 2 3 4).req.a0 = (ports 13 1 2 3 5).req.a0 ∧
    (2 ≤ arity .argb3 → (ports 12 1 2 3 4).req.a1 = (ports 13 1 2 3 5).req.a1) ∧
    (3 ≤ arity .argb3 → (ports 12 1 2 3 4).req.a2 = (ports 13 1 2 3 5).req.a2) ∧
    (4 ≤ arity .argb3 → (ports 12 1 2 3 4).req.a3 = (ports 13 1 2 3 5).req.a3) ∧
    ports 12 1 2 3 4 ≠ ports 13 1 2 3 5 := by decide

theorem test_witness_AnswerDependsOnTheRequestAlone :
    (ports 0 1 2 3 4).req = { ports 0 1 2 3 4 with res := 7, draw := 9 }.req ∧
    step (ports 0 1 2 3 4) = .next { ports 0 1 2 3 4 with res := mix 1 } := ⟨rfl, rfl⟩

/-- The same-bits clause at its boundaries: the codes 8, 9, 11 and 12, and a zero saturation. -/
theorem test_witness_AnswerDependsOnTheRequestAlone_boundaries :
    (ports 8 1 2 3 4).req.op.toNat < 9 ∧ ¬ (ports 9 1 2 3 4).req.op.toNat < 9 ∧
    ¬ 12 ≤ (ports 11 1 2 3 4).req.op.toNat ∧ 12 ≤ (ports 12 1 2 3 4).req.op.toNat ∧
    isZero (ports 9 1 2 3 4).req.a1 = false ∧ isZero (ports 11 1 0x8000000000000000 3 4).req.a1 = true := by
  decide

theorem test_witness_AllowedResultsAgreeUpToNaN :
    Allowed ⟨0, 1, 2, 3, 4⟩ 0x0000000002200011 :=
  ⟨.mix, quietNan, rfl, quietNan_choice, by decide⟩

/-- A red channel with a zero saturation and a NaN lightness: allowed, and no bit of it is free. -/
theorem test_witness_AllowedResultsAgreeUpToNaN_achromatic :
    Allowed ⟨9, 1, 0x8000000000000000, 0x7FF8000000000123, 4⟩ 0x7FF8000000000123 ∧
    isZero 0x8000000000000000 = true :=
  ⟨⟨.hslr, quietNan, rfl, quietNan_choice, by decide +kernel⟩, by decide⟩

/-- A red channel with a NaN saturation: two different NaNs are allowed. -/
theorem test_witness_AllowedResultsAgreeUpToNaN_free :
    Allowed ⟨9, 0, 0x7FF8000000000000, 0x3FE0000000000000, 4⟩ 0x7FF8000000000000 ∧
    Allowed ⟨9, 0, 0x7FF8000000000000, 0x3FE0000000000000, 4⟩ 0xFFF8000000000001 :=
  ⟨⟨.hslr, quietNan, rfl, quietNan_choice, by decide +kernel⟩,
    ⟨.hslr, fun _ => 0xFFF8000000000001, rfl, fun _ => (by decide : isNaN 0xFFF8000000000001 = true), by decide +kernel⟩⟩

theorem test_witness_SecondEvaluationRepeatsTheFirst :
    step (ports 1 1 2 3 4) = .next { ports 1 1 2 3 4 with res := hash1 1 } := rfl

/-- A hash that is a NaN pattern as a word: none of its bits is free. -/
theorem test_witness_SecondEvaluationRepeatsTheFirst_boundaries :
    (ports 8 1 2 3 4).req.op.toNat < 9 ∧ 12 ≤ (ports 12 1 2 3 4).req.op.toNat ∧
    isZero (ports 9 1 0 3 4).req.a1 = true ∧ isNaN (0x7FF8000000000000 : Word) = true := by decide

theorem test_witness_StepsKeepThePortsConsistent :
    ({ ports 0 1 2 3 4 with res := mix 1 } : State).PortsConsistent ∧
    step { ports 0 1 2 3 4 with res := mix 1 } = .next { ports 0 1 2 3 4 with res := mix 1 } := by
  refine ⟨fun i h => ?_, rfl⟩
  obtain rfl : Instr.mix = i := Except.ok.inj h
  exact ⟨⟨.mix, quietNan, rfl, quietNan_choice, rfl⟩, trivial⟩

theorem test_witness_EveryScheduleGivesEachRequestItsAnswer :
    serveAll [State.reset] [⟨0, ⟨0, 1, 0, 0, 0⟩, 3⟩, ⟨0, ⟨14, 1, 0, 0, 0⟩, 3⟩, ⟨1, ⟨0, 1, 0, 0, 0⟩, 3⟩] =
      [some 0x0000000002200011, none, none] := by decide

theorem test_witness_IntegerPrimitivesAsDefined : 0 ≤ 63 ∧ 63 ≤ 63 ∧ 1 ≤ 63 ∧ 0 < 64 ∧ 63 < 64 := by decide

theorem test_witness_MixIsALinearBijection :
    (ports 0 1 2 3 4).req.a0 = (ports 9 1 5 6 7).req.a0 ∧ 0 < 64 ∧ 63 < 64 := by decide

theorem test_witness_HashesSeparatePatternsInEveryOperand :
    (0x0000000000000000#64) ≠ 0x8000000000000000#64 := by decide

theorem test_witness_UnitMapScalesTheConversionExactly :
    (0xFFFFFFFFFFFFFFFF#64 &&& maxPos).toNat = 2 ^ 63 - 1 := by decide

theorem test_witness_UnitMapClosedForm :
    (0x8000000000000000#64).toNat % 2 ^ 63 = 0 ∧
    ((1#64).toNat % 2 ^ 63 ≠ 0 ∧ 2 ^ (1 - 1) ≤ (1#64).toNat % 2 ^ 63 ∧ (1#64).toNat % 2 ^ 63 < 2 ^ 1) ∧
    (2 ^ (63 - 1) ≤ (0xFFFFFFFFFFFFFFFF#64).toNat % 2 ^ 63 ∧
      (0xFFFFFFFFFFFFFFFF#64).toNat % 2 ^ 63 < 2 ^ 63) ∧
    isFinite kScale = true ∧ val kScale ≤ (((1#64).toNat % 2 ^ 63 : Nat) : ℚ) / 2 ^ 63 := by
  decide +kernel

theorem test_witness_UnitResultsLieBelowOne :
    exec .unit1 (ports 5 1 2 3 4) =
      .next { ports 5 1 2 3 4 with res := unitmap cvtRm ((ports 5 1 2 3 4).nanAt .unitScale) (hash1 1) } ∧
    (1#64).toNat % 2 ^ 63 ≠ 0 ∧ (1#64).toNat % 2 ^ 63 < 2 ^ 63 - 512 := ⟨rfl, by decide, by decide⟩

/-- The boundary of the reading by RNE: the first value that gives 1.0 and the last that does not. -/
theorem test_witness_UnitResultsLieBelowOne_boundaries :
    (0x7FFFFFFFFFFFFE00#64).toNat % 2 ^ 63 = 2 ^ 63 - 512 ∧
    unitmap .rne 0 0x7FFFFFFFFFFFFE00 = 0x3FF0000000000000 ∧
    (0x7FFFFFFFFFFFFDFF#64).toNat % 2 ^ 63 < 2 ^ 63 - 512 ∧
    unitmap .rne 0 0x7FFFFFFFFFFFFDFF = 0x3FEFFFFFFFFFFFFF := by decide +kernel

theorem test_witness_ConversionKeepsTheLeading53Bits :
    (1 < 2 ^ 63 ∧ 2 ^ (1 - 1) ≤ 1 ∧ 1 < 2 ^ 1 ∧ 1 ≤ 1) ∧
    (2 ^ 53 - 1 < 2 ^ 63 ∧ 2 ^ (53 - 1) ≤ 2 ^ 53 - 1 ∧ 2 ^ 53 - 1 < 2 ^ 53 ∧ 53 ≤ 53) ∧
    (2 ^ 53 + 1 < 2 ^ 63 ∧ 2 ^ (54 - 1) ≤ 2 ^ 53 + 1 ∧ 2 ^ 53 + 1 < 2 ^ 54 ∧ 53 < 54) ∧
    (2 ^ 63 - 1 < 2 ^ 63 ∧ 2 ^ (63 - 1) ≤ 2 ^ 63 - 1 ∧ 53 < 63) := by decide

theorem test_witness_FormatGivesClassAndValue :
    isZero 0x8000000000000000 = true ∧ isSubnormal 0x000FFFFFFFFFFFFF = true ∧
    isNormal 0x0010000000000000 = true ∧ isNormal 0x7FEFFFFFFFFFFFFF = true ∧ 0 < 64 ∧ 63 < 64 := by
  decide

theorem test_witness_WiredConstantsHaveTheirValues : isFinite 0x3FD5555555555556 = true := by decide

/-- A number that rounds down, a tie between two data, and an overflow. -/
theorem test_witness_RoundingIsToNearestEven :
    (0 < 1 ∧ 0 < 3 ∧ ((1 : Nat) : ℚ) / (3 : Nat) < 2 ^ 1024 - 2 ^ 970 ∧ isFinite kThird = true) ∧
    (|magVal (rnd false (2 ^ 53 + 1) 1) - ((2 ^ 53 + 1 : Nat) : ℚ) / (1 : Nat)| =
      |magVal 0x4340000000000001 - ((2 ^ 53 + 1 : Nat) : ℚ) / (1 : Nat)| ∧
      magVal 0x4340000000000001 ≠ magVal (rnd false (2 ^ 53 + 1) 1)) ∧
    (2 : ℚ) ^ 1024 - 2 ^ 970 ≤ ((pow2 1024 : Nat) : ℚ) / (1 : Nat) := by decide +kernel

/-- The overflow threshold 2^1024 - 2^970 itself, and the number just below it. -/
theorem test_witness_RoundingIsToNearestEven_threshold :
    ((pow2 1024 - pow2 970 : Nat) : ℚ) / (1 : Nat) = 2 ^ 1024 - 2 ^ 970 ∧
    rnd true (pow2 1024 - pow2 970) 1 = infOf true ∧
    rnd true (pow2 1024 - pow2 970 - 1) 1 = 0xFFEFFFFFFFFFFFFF := by decide +kernel

theorem test_witness_AdditionFollowsTheCases :
    isNaN 0x7FF8000000000000 = true ∧ isInf 0x7FF0000000000000 = true ∧
    isInf 0xFFF0000000000000 = true ∧ isFinite kOne = true ∧ isZero 0x8000000000000000 = true ∧
    isZero kOne = false ∧ isNaN kOne = false ∧ isZero 0x7FF0000000000000 = false ∧
    val kOne + val 0xBFF0000000000000 = 0 ∧ val kOne + val kThird ≠ 0 := by decide +kernel

theorem test_witness_SubtractionAddsTheNegation :
    isFinite 0x8000000000000000 = true ∧ isFinite kThird = true ∧ isInf 0xFFF0000000000000 = true := by
  decide

theorem test_witness_MultiplicationFollowsTheCases :
    isNaN 0xFFF8000000000000 = true ∧ isInf 0x7FF0000000000000 = true ∧
    isZero 0x0000000000000000 = true ∧ isNaN kTwo = false ∧ isZero kTwo = false ∧
    isNaN 0x7FF0000000000000 = false ∧ isZero 0x7FF0000000000000 = false ∧ isFinite kTwo = true ∧
    isFinite 0x0000000000000000 = true := by decide

theorem test_witness_PowerOfTwoScalingIsExact :
    isFinite kThird = true ∧ 1 / (2 : ℚ) ^ 1022 ≤ |val kThird * val kScale| ∧
    |val kThird * val kScale| < (2 : ℚ) ^ 1024 ∧
    1 / (2 : ℚ) ^ 1022 ≤ |val 0x0008000000000000 * val kTwo| := by decide +kernel

theorem test_witness_RepresentableResultsAreExact :
    (isFinite kOne = true ∧ isFinite kTwo = true ∧ isZero kTwo = false ∧
      val kOne + val kOne = val kTwo ∧ val kOne * val kTwo = val kTwo) ∧
    (isFinite 0x0000000000000001 = true ∧ isZero 0x0000000000000001 = false ∧
      val 0x0000000000000002 * val kHalf = val 0x0000000000000001) := by decide +kernel

theorem test_witness_ComparisonsOrderTheExtendedReals :
    isNaN 0x7FF8000000000000 = true ∧ isNaN kOne = false ∧ isFinite kOne = true ∧
    isFinite 0x8000000000000000 = true := by decide

theorem test_witness_FloorIsTheGreatestInteger :
    isNaN 0x7FF8000000000000 = true ∧ isInf 0xFFF0000000000000 = true ∧
    isZero 0x8000000000000000 = true ∧ isFinite 0xC004000000000000 = true ∧
    (isFinite kHalf = true ∧ 0 < val kHalf ∧ val kHalf < 1) ∧
    (isFinite 0x8000000000000001 = true ∧ -1 < val 0x8000000000000001 ∧ val 0x8000000000000001 < 0) ∧
    (isFinite 0x4330000000000000 = true ∧ (2 : ℚ) ^ 52 ≤ |val 0x4330000000000000|) := by
  decide +kernel

theorem test_witness_ChromaticPathIsAsWritten :
    (isFinite 0x3FDFFFFFFFFFFFFF = true ∧ val 0x3FDFFFFFFFFFFFFF < 1 / 2) ∧
    (isFinite kHalf = true ∧ 1 / 2 ≤ val kHalf) ∧ isNaN 0x7FF8000000000000 = true ∧
    isZero 0x8000000000000000 = true ∧ isZero kOne = false := by decide +kernel

theorem test_witness_HslRulesCornerCases :
    NanChoice quietNan ∧ isZero 0x8000000000000000 = true ∧ isZero kOne = false ∧
    isFinite (fmul (quietNan .rampFirst) (fsub (quietNan .rampSpan) (chromaQ quietNan kOne kHalf)
      (chromaP quietNan kOne kHalf)) kSix) = true :=
  ⟨quietNan_choice, by decide +kernel⟩

theorem test_witness_HslOutOfRangeExamplesAreExact :
    NanChoice quietNan ∧ isNaN 0x7FF8000000000000 = true := ⟨quietNan_choice, by decide⟩

theorem test_witness_AchromaticAnswersTheLightness :
    (ports 9 1 0 3 4).req.a1 = 0x0000000000000000 ∧
    (ports 9 1 0x8000000000000000 3 4).req.a1 = 0x8000000000000000 := by decide

theorem test_witness_HueWithoutAValueAnswersP :
    NanChoice quietNan ∧ isNaN 0x7FF8000000000000 = true ∧ isInf 0xFFF0000000000000 = true ∧
    isZero kOne = false := ⟨quietNan_choice, by decide, by decide, by decide⟩

theorem test_witness_NanColourAnswersNan :
    NanChoice quietNan ∧ isNaN 0x7FF8000000000000 = true ∧ isZero kOne = false :=
  ⟨quietNan_choice, by decide, by decide⟩

theorem test_witness_WrapReducesTheHue :
    NanChoice quietNan ∧ isNaN 0x7FF8000000000000 = true ∧ isInf 0x7FF0000000000000 = true ∧
    (isFinite 0xC008000000000000 = true ∧ val 0xC008000000000000 = ((-3 : ℤ) : ℚ)) ∧
    (isFinite 0x4340000000000000 = true ∧ (2 : ℚ) ^ 52 ≤ |val 0x4340000000000000|) ∧
    (isFinite kHalf = true ∧ 0 < val kHalf ∧ val kHalf < 1) ∧
    (isFinite 0xBC90000000000000 = true ∧ -1 / 2 ^ 54 ≤ val 0xBC90000000000000 ∧
      val 0xBC90000000000000 < 0) ∧
    val 0xC004000000000000 - ((⌊val 0xC004000000000000⌋ : ℤ) : ℚ) ≠ 0 :=
  ⟨quietNan_choice, by decide +kernel⟩

theorem test_witness_ComponentBranchesByInterval :
    (isFinite 0x0000000000000000 = true ∧ val 0x0000000000000000 < val kSixth) ∧
    (isFinite kSixth = true ∧ val kSixth ≤ val kSixth ∧ val kSixth < 1 / 2) ∧
    (isFinite kHalf = true ∧ 1 / 2 ≤ val kHalf ∧ val kHalf < val kTwoThirds) ∧
    (isFinite kTwoThirds = true ∧ val kTwoThirds ≤ val kTwoThirds) ∧
    isNaN 0x7FF8000000000000 = true := by decide +kernel

theorem test_witness_ChannelByteTruncatesAndClamps :
    isNaN 0x7FF8000000000000 = true ∧ isNaN 0x7FEFFFFFFFFFFFFF = false ∧
    fmul 0 0x7FEFFFFFFFFFFFFF k256 = infOf false ∧ isNaN 0xFFEFFFFFFFFFFFFF = false ∧
    fmul 0 0xFFEFFFFFFFFFFFFF k256 = infOf true ∧
    isFinite kOne = true ∧ isFinite (fmul 0 kOne k256) = true := by decide +kernel

theorem test_witness_ChannelByteClosedForm :
    isNaN 0x7FF8000000000000 = true ∧ (isFinite kOne = true ∧ 255 / 256 ≤ val kOne) ∧
    (isFinite 0x3F6FFFFFFFFFFFFF = true ∧ val 0x3F6FFFFFFFFFFFFF < 1 / 256) ∧
    (isFinite 0x3F70000000000000 = true ∧ 1 / 256 ≤ val 0x3F70000000000000 ∧
      val 0x3F70000000000000 < 255 / 256) := by decide +kernel

theorem test_witness_ChannelByteIsMonotone :
    isNaN kHalf = false ∧ isNaN kOne = false ∧ flt kOne kHalf = false := by decide +kernel

theorem test_witness_OpaquePackingAgrees :
    chan nanByte 0 (ports 12 1 2 3 kOne).req.a3 = 255 ∧ (ports 12 1 2 3 kOne).req.a3 = kOne := by
  decide +kernel

theorem test_witness_PackerRulesCornerCases :
    (ports 13 kOne kOne kOne kOne).req.a3 = kOne ∧
    isNaN (ports 13 0x7FF8000000000000 (infOf false) (infOf true) 0x7FF8000000000000).req.a0 = true ∧
    (ports 12 0xBFF0000000000000 kHalf kTwo 0).req.a1 = kHalf := by decide +kernel

theorem test_witness_WellFormedLinesAllGetResults :
    wellFormedLines (([(['u'], 1)] : Env).map Prod.fst)
      (([(⟨['a'], .mix, [.label ['u']]⟩, 7), (⟨['k'], .hash2, [.label ['a'], .real false 5 (-1)]⟩, 7)] :
        List (Line × Nat)).map Prod.fst) = true := by
  decide

/-- Two lines run: the second reads the first's result, and what was kept before stays. -/
theorem test_run_lines :
    (runLines [(['u'], 1)] State.reset [(⟨['a'], .mix, [.label ['u']]⟩, 7),
      (⟨['b'], .mix, [.label ['a']]⟩, 8)]).map Prod.fst =
      some [(['b'], mix 0x0000000002200011), (['a'], 0x0000000002200011), (['u'], 1)] := by decide

/-! ### The assembler -/

/-- 30_encoding.md R69: a line of text, read. -/
theorem test_parse_line :
    parseLine ['k', ' ', '=', ' ', 'H', 'A', 'S', 'H', '2', ' ', 'a', ',', ' ', '-', '0', '.', '5'] =
      some ⟨['k'], .hash2, [.label ['a'], .real true 5 (-1)]⟩ := by decide +kernel

/-- R69 (b): `-0.0` is the negative zero and 0.1 its nearest pattern, ties to even. -/
theorem test_literal_bits :
    literalBits true 0 (-1) = 0x8000000000000000 ∧ literalBits false 1 (-1) = 0x3FB999999999999A := by
  decide +kernel

end Sys2Proof.Tests
end

/-! The rules of 00_scope.md: a step is the evaluation of the operation on the `op` port (R12). -/

namespace Sys2Proof.Machine

/-- Every operation is the one its own code selects (R62). -/
@[simp] theorem decodeOp_encodeOp (i : Instr) : decodeOp (encodeOp i) = .ok i := by
  cases i <;> rfl

/-- No operation reads `res`, so it answers the same once the port follows the inputs (R20). -/
@[simp] theorem exec_settle (i : Instr) (s : State) : exec i s.settle = exec i s := by
  rw [exec_eq_after, exec_eq_after]
  rfl

/-- An operation's own code, put on `op`, leaves the operand ports and the draw (log entry 11). -/
theorem State.withFetchWord_encodeOp (s : State) (nbits : Nat) (i : Instr) :
    s.withFetchWord nbits (encodeOp i).toNat =
      State.settle { s with req := { s.req with op := encodeOp i } } := by
  rw [State.withFetchWord, BitVec.ofNat_toNat, BitVec.setWidth_eq, State.present]

/-- Settles O6: a step is `exec` of the decoded operation; after `withFetchWord` the decoder gives back
the operation whose code was placed, and the result port it drove plays no part. -/
theorem stepEvaluatesTheDecodedOperation : Obligations.StepEvaluatesTheDecodedOperation := by
  refine ⟨fun _ _ => step_of_decode, fun s i nbits => ?_⟩
  rw [State.withFetchWord_encodeOp, step_of_decode (i := i) (by simp), exec_settle]

end Sys2Proof.Machine

/-! The rules of 10_state.md: the ports and nothing else (R20 to R22), the wired constants (R26), the
freedom of NaN bits (R30), the types of the results (R31) and the ports at reset (R32). -/

namespace Sys2Proof.Machine

/-! ### The type of a result (R31, R65) -/

/-- Below the exponent of 1.0 every magnitude is below one (R100). -/
theorem val_lt_one_of_expField {x : F64} (h : expField x < 1023) : val x < 1 := by
  have hf := fracField_lt x
  have hm : magUnits x < pow2 1074 := by
    unfold magUnits
    split
    · exact lt_of_lt_of_le (b := pow2 52) (by rwa [pow2_eq]) (pow2_le (by omega))
    · calc (2 ^ 52 + fracField x) * pow2 (expField x - 1)
          < 2 ^ 53 * pow2 (expField x - 1) := Nat.mul_lt_mul_of_pos_right (by omega) (pow2_pos _)
        _ ≤ 2 ^ 53 * pow2 1021 := Nat.mul_le_mul_left _ (pow2_le (by omega))
        _ = pow2 1074 := by rw [show 1074 = 53 + 1021 by rfl, pow2_add]; rfl
  have hu : units x < pow2 1074 := by
    unfold units
    split <;> omega
  rw [val, div_lt_one (by exact_mod_cast pow2_pos 1074)]
  exact_mod_cast hu

theorem units_of_signBit_false {x : F64} (h : signBit x = false) : units x = magUnits x := by
  simp [units, h]

theorem val_nonneg_of_signBit_false {x : F64} (h : signBit x = false) : 0 ≤ val x := by
  rw [val, units_of_signBit_false h]
  positivity

/-- A normal datum's magnitude is its significand at its exponent (R100). -/
theorem magUnits_of_expField_pos {x : F64} (h : 0 < expField x) :
    magUnits x = (2 ^ 52 + fracField x) * pow2 (expField x - 1) :=
  if_neg h.ne'

/-- Scaling by 2^-63 lowers the exponent of a datum by 63 and loses nothing, while it stays normal
(R105, R170). -/
theorem fmul_kScale {x : F64} (nan : F64) (hfin : isFinite x = true) (he : 64 ≤ expField x) :
    fmul nan x kScale = mkF64 (signBit x) (expField x - 63) (fracField x) := by
  have hlt : expField x - 63 < 2048 := by have := expField_lt x; omega
  have hf := fracField_lt x
  generalize hy : mkF64 (signBit x) (expField x - 63) (fracField x) = y
  have hys : signBit y = signBit x := by rw [← hy, signBit_mkF64 _ hlt hf]
  have hye : expField y = expField x - 63 := by rw [← hy, expField_mkF64 _ hlt hf]
  have hyf : fracField y = fracField x := by rw [← hy, fracField_mkF64 _ hlt hf]
  have hyfin : isFinite y = true := by
    simp only [isFinite, decide_eq_true_eq] at hfin ⊢
    omega
  have hexact : magUnits x * magUnits kScale * pow2 1074 = magUnits y * pow2 2148 := by
    rw [magUnits_of_expField_pos (x := x) (by omega), magUnits_of_expField_pos (x := y) (by omega),
      hye, hyf, show magUnits kScale = pow2 1011 by decide +kernel]
    simp only [Nat.mul_assoc, ← pow2_add]
    congr 2
    omega
  have hxz : isZero x = false := by simp [isZero, show expField x ≠ 0 by omega]
  rw [fmul_finite nan hfin (by decide), hxz, show isZero kScale = false by decide,
    show signBit kScale = false by decide, rnd_of_magUnits (pow2_pos _) hexact]
  simpa [hys] using ofMagUnits_magUnits hyfin

/-- The leading 53 bits of a number, as the conversion keeps them, fit a significand (R111). -/
theorem cvt63_significand_lt {m : Nat} (hm : m ≠ 0) :
    (if Nat.log2 m + 1 ≤ 53 then m * pow2 (53 - (Nat.log2 m + 1))
      else m / pow2 (Nat.log2 m + 1 - 53)) < 2 ^ 53 := by
  have hhi := (log2_bounds hm).2
  split
  · calc m * pow2 (53 - (Nat.log2 m + 1))
        < pow2 (Nat.log2 m + 1) * pow2 (53 - (Nat.log2 m + 1)) :=
          Nat.mul_lt_mul_of_pos_right hhi (pow2_pos _)
      _ = pow2 53 := by rw [← pow2_add]; congr 1; omega
      _ = 2 ^ 53 := rfl
  · rw [Nat.div_lt_iff_lt_mul (pow2_pos _), show (2 : Nat) ^ 53 = pow2 53 from rfl, ← pow2_add]
    rwa [show 53 + (Nat.log2 m + 1 - 53) = Nat.log2 m + 1 by omega]

/-- Sign and exponent of a converted number under RTZ, the fraction playing no part (R111). -/
theorem cvt63_rtz_sign_exp {m : Nat} (hm : m ≠ 0) (h63 : m < 2 ^ 63) :
    signBit (cvt63 .rtz m) = false ∧ expField (cvt63 .rtz m) = 1023 + Nat.log2 m := by
  have hlog : Nat.log2 m < 63 := (Nat.log2_lt hm).mpr h63
  have he : 1022 + (Nat.log2 m + 1) < 2048 := by omega
  have hf := cvt63_significand_lt hm
  simp only [cvt63, if_neg hm]
  rw [signBit_mkF64 _ he (by omega), expField_mkF64 _ he (by omega)]
  exact ⟨rfl, by omega⟩

theorem and_maxPos_lt (h : Word) : (h &&& maxPos).toNat < 2 ^ 63 := by
  rw [BitVec.toNat_and]
  exact Nat.and_lt_two_pow _ (by decide)

/-- A unit value has sign `+` and an exponent below that of 1.0 (R170, R175). -/
theorem unitmap_rtz_sign_exp (nan : F64) (h : Word) :
    signBit (unitmap .rtz nan h) = false ∧ expField (unitmap .rtz nan h) < 1023 := by
  have h63 := and_maxPos_lt h
  unfold unitmap
  generalize (h &&& maxPos).toNat = m at h63
  rcases eq_or_ne m 0 with rfl | hm
  · rw [show cvt63 .rtz 0 = zeroOf false from rfl, fmul_finite nan (isFinite_zeroOf _) (by decide),
      isZero_zeroOf]
    exact ⟨by decide, by decide⟩
  · obtain ⟨hsign, hexp⟩ := cvt63_rtz_sign_exp hm h63
    have hlog : Nat.log2 m < 63 := (Nat.log2_lt hm).mpr h63
    have hfin : isFinite (cvt63 .rtz m) = true := by
      simp only [isFinite, hexp, decide_eq_true_eq]
      omega
    have he : expField (cvt63 .rtz m) - 63 < 2048 := by omega
    rw [fmul_kScale nan hfin (by omega), signBit_mkF64 _ he (fracField_lt _),
      expField_mkF64 _ he (fracField_lt _)]
    exact ⟨hsign, by omega⟩

/-- A unit value is a number of sign `+` in `[0, 1)` (R31, R175). -/
theorem unitmap_rtz_range (nan : F64) (h : Word) :
    isFinite (unitmap .rtz nan h) = true ∧ signBit (unitmap .rtz nan h) = false ∧
      0 ≤ val (unitmap .rtz nan h) ∧ val (unitmap .rtz nan h) < 1 := by
  obtain ⟨hsign, hexp⟩ := unitmap_rtz_sign_exp nan h
  exact ⟨by simp only [isFinite, decide_eq_true_eq]; omega, hsign,
    val_nonneg_of_signBit_false hsign, val_lt_one_of_expField hexp⟩

theorem zext64_lt (v : Word32) : (zext64 v).toNat < 2 ^ 32 := by
  rw [zext64, BitVec.toNat_setWidth_of_le (by omega)]
  exact v.isLt

/-- Every operation answers with a word of its type, whatever is drawn (R31, R65). -/
theorem resultTyped_eval (nan : NanSite → F64) (i : Instr) (r : Request) :
    ResultTyped i (eval nan i r) := by
  cases i with
  | mix | hash1 | hash2 | hash3 | hash4 | hslr | hslg | hslb => trivial
  | unit1 | unit2 | unit3 | unit4 => exact unitmap_rtz_range _ _
  | argb3 | argb4 => exact zext64_lt _

/-! ### Consistent ports (R22, R32) -/

theorem nanChoice_nanAt (s : State) : NanChoice s.nanAt := isNaN_nanAt s

/-- Settled ports carry `Eval` of an assigned request under the state's own draw. -/
theorem State.Settled.res_eq {s : State} {i : Instr} (h : s.Settled)
    (hi : decodeOp s.req.op = .ok i) : s.res = eval s.nanAt i s.req :=
  h.trans (State.portValue_of_decode hi)

/-- Settled ports carry a result the rules allow (R22, R108). -/
theorem State.Settled.allowed {s : State} {i : Instr} (h : s.Settled)
    (hi : decodeOp s.req.op = .ok i) : Allowed s.req s.res :=
  ⟨i, s.nanAt, hi, nanChoice_nanAt s, h.res_eq hi⟩

/-- Settled ports are consistent: `Eval` of the inputs is allowed and has its type. -/
theorem State.Settled.portsConsistent {s : State} (h : s.Settled) : s.PortsConsistent := by
  intro i hi
  refine ⟨h.allowed hi, ?_⟩
  rw [h.res_eq hi]
  exact resultTyped_eval s.nanAt i s.req

/-- A step that answers had an assigned code on `op`, and leaves the ports settled. -/
theorem step_next_inv {s t : State} (h : step s = .next t) :
    ∃ i, decodeOp s.req.op = .ok i ∧ t = s.settle := by
  obtain ⟨i, hi, -⟩ | ⟨-, hr⟩ := step_cases s
  · rw [step_eq_settle hi] at h
    exact ⟨i, hi, (Host.Outcome.next.inj h).symm⟩
  · rw [hr] at h
    cases h

/-- Settles O14: a step that answers settles the ports, and settled ports are consistent. -/
theorem stepsKeepThePortsConsistent : Obligations.StepsKeepThePortsConsistent := by
  intro s t _ hstep
  obtain ⟨_, _, rfl⟩ := step_next_inv hstep
  exact s.settled_settle.portsConsistent

/-- Settles O15: the ports at reset are settled. -/
theorem portsAreConsistentAtReset : Obligations.PortsAreConsistentAtReset :=
  ⟨State.reset_settled.portsConsistent, step_of_settled (i := .mix) rfl State.reset_settled⟩

/-! ### The freedom of NaN bits (R30, R108) -/

/-- The conversion of a 63-bit integer is a number under RTZ (R111). -/
theorem isFinite_cvt63_rtz {m : Nat} (h63 : m < 2 ^ 63) : isFinite (cvt63 .rtz m) = true := by
  rcases eq_or_ne m 0 with rfl | hm
  · exact isFinite_zeroOf _
  · have hlog : Nat.log2 m < 63 := (Nat.log2_lt hm).mpr h63
    simp only [isFinite, (cvt63_rtz_sign_exp hm h63).2, decide_eq_true_eq]
    omega

/-- The scaling of a unit value draws nothing (R175). -/
theorem unitmap_rtz_draw (n n' : F64) (h : Word) : unitmap .rtz n h = unitmap .rtz n' h :=
  fmul_finite_nan_irrelevant n n' (isFinite_cvt63_rtz (and_maxPos_lt h)) (by decide)

/-- The scaling of a channel draws nothing: a NaN is packed before it (R220). -/
theorem chan_draw (nb : Byte) (n n' v : F64) : chan nb n v = chan nb n' v := by
  unfold chan
  cases hv : isNaN v with
  | true => rfl
  | false =>
    have hmul : fmul n v k256 = fmul n' v k256 := by
      simp only [fmul, hv, show isNaN k256 = false by decide, show isInf k256 = false by decide,
        show isZero k256 = false by decide, Bool.or_false, Bool.and_false, Bool.false_eq_true, if_false]
    rw [hmul]

theorem feq_zeroOf_of_isZero {x : F64} (h : isZero x = true) (b : Bool) : feq x (zeroOf b) = true := by
  simp [feq, h, not_isNaN_of_isFinite (isFinite_of_isZero h)]

/-- The achromatic path: no arithmetic, so the lightness comes back bit for bit (R196). -/
theorem hsl_of_isZero {s : F64} (nan : NanSite → F64) (k : Channel) (h l : F64)
    (hs : isZero s = true) : hsl nan k h s l = l :=
  if_pos (feq_zeroOf_of_isZero hs false)

/-- The code of the operation a code selects is that code (R61, R62). -/
theorem encodeOp_of_decodeOp {op : BitVec 4} {i : Instr} (h : decodeOp op = .ok i) :
    encodeOp i = op := by
  unfold decodeOp at h
  split at h <;> cases h
  all_goals exact BitVec.eq_of_toNat_eq (Eq.symm ‹op.toNat = _›)

section
variable {nan nan' : NanSite → F64} (hn : NanChoice nan) (hn' : NanChoice nan')
include hn hn'

theorem chromaQ_sameUpToNaN (s l : F64) : SameUpToNaN (chromaQ nan s l) (chromaQ nan' s l) := by
  unfold chromaQ
  split
  · exact fmul_sameUpToNaN (hn _) (hn' _) (.refl l) (fadd_draw (hn _) (hn' _) kOne s)
  · exact fsub_sameUpToNaN (hn _) (hn' _) (fadd_draw (hn _) (hn' _) l s)
      (fmul_draw (hn _) (hn' _) l s)

theorem chromaP_sameUpToNaN (s l : F64) : SameUpToNaN (chromaP nan s l) (chromaP nan' s l) :=
  fsub_sameUpToNaN (hn _) (hn' _) (fmul_draw (hn _) (hn' _) kTwo l) (chromaQ_sameUpToNaN hn hn' s l)

theorem wrap_sameUpToNaN {t t' : F64} (ht : SameUpToNaN t t') :
    SameUpToNaN (wrap nan t) (wrap nan' t') :=
  fsub_sameUpToNaN (hn _) (hn' _) ht (ffloor_sameUpToNaN (hn _) (hn' _) ht)

theorem offsetHue_sameUpToNaN (k : Channel) (h : F64) :
    SameUpToNaN (offsetHue nan k h) (offsetHue nan' k h) := by
  cases k with
  | red => exact fadd_draw (hn _) (hn' _) h kThird
  | green => exact .refl h
  | blue => exact fadd_draw (hn _) (hn' _) h (fneg kThird)

/-- The helper takes the same branch for both draws, and each branch keeps the agreement (R192). -/
theorem component_sameUpToNaN {p p' q q' w w' : F64} (hp : SameUpToNaN p p')
    (hq : SameUpToNaN q q') (hw : SameUpToNaN w w') :
    SameUpToNaN (component nan p q w) (component nan' p' q' w') := by
  have hspan := fsub_sameUpToNaN (hn .rampSpan) (hn' .rampSpan) hq hp
  have hrest := fsub_sameUpToNaN (hn .rampRest) (hn' .rampRest) (.refl kTwoThirds) hw
  unfold component
  simp only [flt_sameUpToNaN hw (.refl _)]
  split_ifs
  · exact fadd_sameUpToNaN (hn _) (hn' _) hp (fmul_sameUpToNaN (hn _) (hn' _)
      (fmul_sameUpToNaN (hn _) (hn' _) hspan (.refl kSix)) hw)
  · exact hq
  · exact fadd_sameUpToNaN (hn _) (hn' _) hp (fmul_sameUpToNaN (hn _) (hn' _)
      (fmul_sameUpToNaN (hn _) (hn' _) hspan hrest) (.refl kSix))
  · exact hp

/-- Two draws give a channel the same bits or two NaNs (R108). -/
theorem hsl_sameUpToNaN (k : Channel) (h s l : F64) :
    SameUpToNaN (hsl nan k h s l) (hsl nan' k h s l) := by
  unfold hsl
  split
  · exact .refl l
  · exact component_sameUpToNaN hn hn' (chromaP_sameUpToNaN hn hn' s l)
      (chromaQ_sameUpToNaN hn hn' s l) (wrap_sameUpToNaN hn hn' (offsetHue_sameUpToNaN hn hn' k h))

end

/-- Outside the chromatic path of the HSL operations no bit of the result is drawn (R30). -/
theorem eval_draw (nan nan' : NanSite → F64) (i : Instr) (r : Request)
    (h : (encodeOp i).toNat < 9 ∨ 12 ≤ (encodeOp i).toNat ∨ isZero r.a1 = true) :
    eval nan i r = eval nan' i r := by
  cases i with
  | mix | hash1 | hash2 | hash3 | hash4 => rfl
  | unit1 | unit2 | unit3 | unit4 => exact unitmap_rtz_draw _ _ _
  | argb3 | argb4 => simp only [eval, chan_draw nanByte (nan .chanScale) (nan' .chanScale)]
  | hslr | hslg | hslb =>
    have hz : isZero r.a1 = true := by simpa [encodeOp] using h
    simp only [eval, hsl_of_isZero _ _ _ _ hz]

/-- Two allowed draws give one request the same bits or two NaNs (R30, R108). -/
theorem eval_sameUpToNaN {nan nan' : NanSite → F64} (hn : NanChoice nan) (hn' : NanChoice nan')
    (i : Instr) (r : Request) : SameUpToNaN (eval nan i r) (eval nan' i r) := by
  cases i with
  | hslr | hslg | hslb => exact hsl_sameUpToNaN hn hn' _ _ _ _
  | mix | hash1 | hash2 | hash3 | hash4 | unit1 | unit2 | unit3 | unit4 | argb3 | argb4 =>
    exact .inl (eval_draw nan nan' _ r (by simp [encodeOp]))

/-- Settles O12: the code fixes the operation, and `Eval` of it leaves only NaN bits to the draw. -/
theorem allowedResultsAgreeUpToNaN : Obligations.AllowedResultsAgreeUpToNaN := by
  rintro r w w' ⟨i, nan, hi, hn, rfl⟩ ⟨i', nan', hi', hn', rfl⟩
  obtain rfl : i = i' := Except.ok.inj (hi.symm.trans hi')
  rw [← encodeOp_of_decodeOp hi]
  exact ⟨eval_sameUpToNaN hn hn' i r, eval_draw nan nan' i r⟩

/-- Settles O11: both answers are allowed for the one request. -/
theorem answerDependsOnTheRequestAlone : Obligations.AnswerDependsOnTheRequestAlone := by
  intro s t s' hreq hstep
  obtain ⟨i, hi, rfl⟩ := step_next_inv hstep
  have hti : decodeOp t.req.op = .ok i := hreq ▸ hi
  refine ⟨t.settle, step_eq_settle hti, ?_⟩
  exact allowedResultsAgreeUpToNaN s.req _ _ (s.settled_settle.allowed hi)
    (hreq ▸ t.settled_settle.allowed hti)

/-! ### The wired constants (R26) -/

/-- A magnitude of at least `2^(52 + k)` units is a multiple of `2^k` of them (R100). -/
theorem pow2_dvd_magUnits {x : F64} {k : Nat} (h : pow2 (52 + k) ≤ magUnits x) :
    pow2 k ∣ magUnits x := by
  have hk : k ≤ Nat.log2 (magUnits x) - 52 := by have := log2_ge h; omega
  have hd : pow2 k ∣ pow2 (Nat.log2 (magUnits x) - 52) := by
    simp only [pow2_eq]
    exact Nat.pow_dvd_pow 2 hk
  exact hd.trans (dvd_magUnits x)

/-- Above a positive datum of at least `2^(52 + k)` units the next one is at least `2^k` units on. -/
theorem units_add_pow2_le {x y : F64} {k : Nat} (hx : signBit x = false)
    (hk : pow2 (52 + k) ≤ magUnits x) (h : units x < units y) : units x + pow2 k ≤ units y := by
  rw [units_of_signBit_false hx] at h ⊢
  have hy : signBit y = false := by
    by_contra hs
    rw [units, if_pos (by simpa using hs)] at h
    omega
  rw [units_of_signBit_false hy] at h ⊢
  obtain ⟨a, ha⟩ := pow2_dvd_magUnits hk
  obtain ⟨b, hb⟩ := pow2_dvd_magUnits (hk.trans (by omega : magUnits x ≤ magUnits y))
  have hab : a < b := by
    have : pow2 k * a < pow2 k * b := by omega
    exact lt_of_mul_lt_mul_left this (Nat.zero_le _)
  have : pow2 k * (a + 1) ≤ pow2 k * b := Nat.mul_le_mul_left _ hab
  rw [ha, hb]
  push_cast
  exact_mod_cast this

/-- A positive datum just below `q`, by no more than half the gap to the next one, is nearest to `q`
among all data (R102). -/
theorem val_nearest {x : F64} {k : Nat} {q : ℚ} (hx : signBit x = false)
    (hk : pow2 (52 + k) ≤ magUnits x) (hlo : val x ≤ q)
    (hhi : 2 * q ≤ 2 * val x + pow2 k / pow2 1074) (y : F64) : |val x - q| ≤ |val y - q| := by
  rw [abs_of_nonpos (by linarith)]
  rcases le_or_gt (units y) (units x) with h | h
  · have hval : val y ≤ val x :=
      div_le_div_of_nonneg_right (Int.cast_le.mpr h) (Nat.cast_nonneg _)
    linarith [neg_abs_le (val y - q)]
  · have hval : val x + pow2 k / pow2 1074 ≤ val y := by
      rw [val, val, ← add_div]
      refine div_le_div_of_nonneg_right ?_ (Nat.cast_nonneg _)
      exact_mod_cast units_add_pow2_le hx hk h
    linarith [le_abs_self (val y - q)]

/-- Settles O31: the values by evaluation; each of the three fractions lies in the half gap above its
constant. -/
theorem wiredConstantsHaveTheirValues : Obligations.WiredConstantsHaveTheirValues := by
  obtain ⟨third_lt, third_gap⟩ :
      val kThird < 1 / 3 ∧ 2 * (1 / 3) ≤ 2 * val kThird + pow2 1020 / pow2 1074 := by decide +kernel
  obtain ⟨sixth_lt, sixth_gap⟩ :
      val kSixth < 1 / 6 ∧ 2 * (1 / 6) ≤ 2 * val kSixth + pow2 1019 / pow2 1074 := by decide +kernel
  obtain ⟨twoThirds_lt, twoThirds_gap⟩ :
      val kTwoThirds < 2 / 3 ∧ 2 * (2 / 3) ≤ 2 * val kTwoThirds + pow2 1021 / pow2 1074 := by
    decide +kernel
  refine ⟨rfl, by decide, rfl, by decide +kernel, by decide +kernel, by decide +kernel,
    by decide +kernel, by decide +kernel, by decide +kernel, third_lt, sixth_lt, twoThirds_lt,
    fun y _ => ⟨?_, ?_, ?_⟩⟩
  · exact val_nearest (by decide) (by decide +kernel) third_lt.le third_gap y
  · exact val_nearest (by decide) (by decide +kernel) sixth_lt.le sixth_gap y
  · exact val_nearest (by decide) (by decide +kernel) twoThirds_lt.le twoThirds_gap y

/-! ### The ports and the result (R20 to R22) -/

/-- Settles O8: presenting, `withFetchWord` and every step settle the ports, and a step on settled ports
changes nothing. -/
theorem resultFollowsTheInputs : Obligations.ResultFollowsTheInputs := by
  refine ⟨State.present_forgets, fun s r draw i hi => ?_, fun s t hstep => ?_, fun s act hs => ?_,
    fun s _ _ => s.settled_present _ _, State.reset_settled⟩
  · have hset := s.settled_present r draw
    exact ⟨rfl, hset.trans (State.portValue_of_decode hi), hset.allowed hi, step_of_settled hi hset⟩
  · obtain ⟨i, hi, rfl⟩ := step_next_inv hstep
    exact ⟨s.settled_settle, step_of_settled hi s.settled_settle⟩
  · cases act with
    | request r draw => exact s.settled_present r draw
    | abandon => exact hs

/-- Settles O9: an operation drives `res` and nothing else. -/
theorem evaluationWritesOnlyTheResultPort : Obligations.EvaluationWritesOnlyTheResultPort := by
  intro i s t h
  rw [exec_eq_after] at h
  obtain rfl := Host.Outcome.next.inj h
  exact ⟨rfl, rfl, rfl⟩

end Sys2Proof.Machine

/-! The rules of 20_memory.md: there is no memory, so an evaluation repeats itself (R43), and no block
and no request reaches another one (R46, R51). -/

namespace Sys2Proof.Machine

/-- The same request presented to any block, with any draw, gets the same bits or two NaNs (R30, R108). -/
theorem step_present_same_request (s t : State) (draw : Nat) {i : Instr}
    (hi : decodeOp s.req.op = .ok i) :
    ∃ u, step (t.present s.req draw) = .next u ∧ u.req = s.req ∧ SameUpToNaN s.settle.res u.res ∧
      (s.req.op.toNat < 9 ∨ 12 ≤ s.req.op.toNat ∨ isZero s.req.a1 = true →
        s.settle.res = u.res) := by
  have hset := t.settled_present s.req draw
  exact ⟨t.present s.req draw, step_of_settled hi hset, rfl,
    allowedResultsAgreeUpToNaN s.req _ _ (s.settled_settle.allowed hi) (hset.allowed hi)⟩

/-- Settles O13: a step settles the ports, a step on settled ports changes nothing, and the request
presented anew is answered with another result that is allowed for it. -/
theorem secondEvaluationRepeatsTheFirst : Obligations.SecondEvaluationRepeatsTheFirst := by
  intro s t hstep
  obtain ⟨i, hi, rfl⟩ := step_next_inv hstep
  exact ⟨step_of_settled hi s.settled_settle,
    fun draw => step_present_same_request s s.settle draw hi⟩

/-! ### One request served (R264) -/

/-- Exactly the codes below 14 select an operation (R61, R67). -/
theorem exists_decodeOp_iff {op : BitVec 4} : (∃ i, decodeOp op = .ok i) ↔ op.toNat < 14 := by
  constructor
  · rintro ⟨i, hi⟩
    rw [← encodeOp_of_decodeOp hi]
    cases i <;> decide
  · intro hlt
    cases h : decodeOp op with
    | ok i => exact ⟨i, rfl⟩
    | error e => exact absurd (decodeOp_error h).2 (by omega)

/-- An assigned request is answered with what the ports carry once it is presented. -/
theorem serve_of_decode {r : Request} {i : Instr} (s : State) (draw : Nat)
    (hi : decodeOp r.op = .ok i) :
    serve s r draw = (some (s.present r draw).res, s.present r draw) := by
  rw [serve, step_of_settled hi (s.settled_present r draw)]

/-- The answer to an assigned request is one the rules allow for it, whatever the block carried. -/
theorem serve_allowed {r : Request} (s : State) (draw : Nat) (hop : r.op.toNat < 14) :
    ∃ w, (serve s r draw).1 = some w ∧ Allowed r w := by
  obtain ⟨i, hi⟩ := exists_decodeOp_iff.mpr hop
  refine ⟨(s.present r draw).res, by rw [serve_of_decode s draw hi], ?_⟩
  exact (s.settled_present r draw).allowed hi

/-- A reserved code gets no answer (R67). -/
theorem serve_reserved {r : Request} (s : State) (draw : Nat) (hop : ¬ r.op.toNat < 14) :
    (serve s r draw).1 = none := by
  obtain ⟨i, hi, -⟩ | ⟨-, hr⟩ := step_cases (s.present r draw)
  · exact absurd (exists_decodeOp_iff.mp ⟨i, hi⟩) hop
  · rw [serve, hr]

/-! ### A schedule on a list of blocks (R46, R51) -/

/-- `a` is the answer a turn is due on `n` blocks: one allowed for its request, or none where the code is
reserved or no block stands at its position. -/
def AnswersTurn (n : Nat) (e : Turn) (a : Option Word) : Prop :=
  (e.block < n ∧ e.req.op.toNat < 14 → ∃ w, a = some w ∧ Allowed e.req w) ∧
    (¬ (e.block < n ∧ e.req.op.toNat < 14) → a = none)

theorem answersTurn_none {n : Nat} {e : Turn} (h : n ≤ e.block) : AnswersTurn n e none :=
  ⟨fun hdue => absurd hdue.1 (by omega), fun _ => rfl⟩

/-- A block answers its turn whatever state the turns before left it in. -/
theorem answersTurn_serve {n : Nat} {e : Turn} (s : State) (h : e.block < n) :
    AnswersTurn n e (serve s e.req e.draw).1 :=
  ⟨fun hdue => serve_allowed s e.draw hdue.2,
    fun hno => serve_reserved s e.draw fun hop => hno ⟨h, hop⟩⟩

/-- Induction on the schedule over all block lists: a turn replaces one block and keeps their number. -/
theorem serveAll_answersTurn (blocks : List State) (schedule : List Turn) :
    List.Forall₂ (AnswersTurn blocks.length) schedule (serveAll blocks schedule) := by
  induction schedule generalizing blocks with
  | nil => exact .nil
  | cons e rest ih =>
    rw [serveAll]
    split
    next hnone => exact .cons (answersTurn_none (List.getElem?_eq_none_iff.mp hnone)) (ih blocks)
    next s hs =>
      obtain ⟨hlt, -⟩ := List.getElem?_eq_some_iff.mp hs
      have hrest := ih (blocks.set e.block (serve s e.req e.draw).2)
      rw [List.length_set] at hrest
      exact .cons (answersTurn_serve s hlt) hrest

/-- Settles O16: every turn gets its due, since a result never depends on what a block carried before. -/
theorem everyScheduleGivesEachRequestItsAnswer :
    Obligations.EveryScheduleGivesEachRequestItsAnswer :=
  serveAll_answersTurn

end Sys2Proof.Machine

/-! The rules of 30_encoding.md: the operation codes and the flat request (R60 to R62), what is refused
and what is answered (R64 to R67), the assembler's operands and lines (R69) and the pseudo-operations
(R70). -/

namespace Sys2Proof.Machine

/-! ### The flat request (R60) -/

theorem encodeFlat_toNat (r : Request) :
    (encodeFlat r).toNat = r.op.toNat * 2 ^ 256 + r.a3.toNat * 2 ^ 192 + r.a2.toNat * 2 ^ 128 +
      r.a1.toNat * 2 ^ 64 + r.a0.toNat := by
  simp only [encodeFlat, BitVec.toNat_append, ← Nat.shiftLeft_add_eq_or_of_lt (BitVec.isLt _)]
  simp only [Nat.shiftLeft_eq]
  ring

/-- A field of a flat word, as a number: the quotient by its place modulo its width. -/
theorem toNat_flatField (f : BitVec 260) (start len : Nat) :
    (f.extractLsb' start len).toNat = f.toNat / 2 ^ start % 2 ^ len := by
  rw [BitVec.extractLsb'_toNat, Nat.shiftRight_eq_div_pow]

@[simp] theorem requestOfFlat_encodeFlat (r : Request) : requestOfFlat (encodeFlat r) = r := by
  obtain ⟨op, a0, a1, a2, a3⟩ := r
  simp only [requestOfFlat, Request.mk.injEq, ← BitVec.toNat_inj, toNat_flatField, encodeFlat_toNat]
  omega

@[simp] theorem encodeFlat_requestOfFlat (f : BitVec 260) : encodeFlat (requestOfFlat f) = f := by
  apply BitVec.eq_of_toNat_eq
  simp only [encodeFlat_toNat, requestOfFlat, toNat_flatField]
  omega

/-- A flat word decodes exactly to the request it carries and the operation of its `op` field. -/
theorem decodeFlat_eq_ok_iff {f : BitVec 260} {i : Instr} {r : Request} :
    decodeFlat f = .ok (i, r) ↔ decodeOp r.op = .ok i ∧ requestOfFlat f = r := by
  unfold decodeFlat
  cases hd : decodeOp (requestOfFlat f).op with
  | ok j =>
    constructor
    · rintro ⟨⟩
      exact ⟨hd, rfl⟩
    · rintro ⟨hi, rfl⟩
      rw [Except.ok.inj (hd.symm.trans hi)]
  | error e =>
    refine ⟨nofun, ?_⟩
    rintro ⟨hi, rfl⟩
    cases hd.symm.trans hi

/-- Settles O4: the five fields tile the word, so both round trips are equalities of numbers; the
decoder adds to them the round trip of the code. -/
theorem flatRequestRoundTrip : Obligations.FlatRequestRoundTrip := by
  refine ⟨fun r => ⟨requestOfFlat_encodeFlat r, encodeFlat_toNat r⟩, encodeFlat_requestOfFlat,
    fun i a0 a1 a2 a3 => decodeFlat_eq_ok_iff.mpr ⟨by simp, by simp⟩, fun f i r h => ?_⟩
  obtain ⟨hop, rfl⟩ := decodeFlat_eq_ok_iff.mp h
  exact ⟨encodeOp_of_decodeOp hop, encodeFlat_requestOfFlat f⟩

/-! ### The operation codes (R61, R62) -/

/-- Settles O1, by evaluation of the decoder. -/
theorem codeWordsDecodeAsTabled : Obligations.CodeWordsDecodeAsTabled := by
  unfold Obligations.CodeWordsDecodeAsTabled
  decide

theorem decodeOp_eq_ok_iff {op : BitVec 4} {i : Instr} : decodeOp op = .ok i ↔ encodeOp i = op :=
  ⟨encodeOp_of_decodeOp, fun h => h ▸ decodeOp_encodeOp i⟩

/-- The codes from 14 on are reserved (R67). -/
theorem decodeOp_reserved {op : BitVec 4} (h : 14 ≤ op.toNat) :
    decodeOp op = .error (.reservedOp op) := by
  cases hd : decodeOp op with
  | ok i => exact absurd (exists_decodeOp_iff.mp ⟨i, hd⟩) (by omega)
  | error e => rw [(decodeOp_error hd).1]

theorem decodeTableWord_eq_some_iff {nbits w : Nat} {i : Instr} (h : 4 ≤ nbits) :
    decodeTableWord nbits w = some i ↔ encodeOp i = BitVec.ofNat 4 w := by
  rw [decodeTableWord, if_neg (by omega), ← decodeOp_eq_ok_iff]
  cases decodeOp (BitVec.ofNat 4 w) <;> simp

/-- Settles O2: decoding inverts the encoding, and a step looks at nothing else to choose. -/
theorem opAloneSelectsTheOperation : Obligations.OpAloneSelectsTheOperation := by
  refine ⟨fun op => ⟨fun hlt => ?_, decodeOp_reserved⟩, fun w i => ?_⟩
  · obtain ⟨i, hi⟩ := exists_decodeOp_iff.mpr hlt
    refine ⟨i, encodeOp_of_decodeOp hi, fun j hj => ?_, fun s hs => step_of_decode (hs ▸ hi)⟩
    exact Except.ok.inj ((decodeOp_eq_ok_iff.mpr hj).symm.trans hi)
  · rw [decodeTableWord_eq_some_iff le_rfl, BitVec.ofNat_toNat, BitVec.setWidth_eq,
      show (0xF#4) = BitVec.allOnes 4 from rfl, BitVec.and_allOnes, eq_comm]

/-- Settles O3: the table word is cut to four bits before it is decoded. -/
theorem tableWordsCountByTheirLowFourBits : Obligations.TableWordsCountByTheirLowFourBits := by
  refine fun nbits w => ⟨fun h i => ?_, fun h => if_pos h⟩
  rw [decodeTableWord_eq_some_iff h, ← BitVec.toNat_inj, BitVec.toNat_ofNat]

/-! ### Refusals, answers and unread ports (R64 to R67) -/

/-- A step is refused exactly on the codes from 14 on, and names the code (R67). -/
theorem step_eq_refused_iff {s : State} {why : Refusal} :
    step s = .refused why ↔ 14 ≤ s.req.op.toNat ∧ why = .reservedOp s.req.op := by
  obtain ⟨i, hi, hs⟩ | ⟨hop, hs⟩ := step_cases s
  · have hlt := exists_decodeOp_iff.mp ⟨i, hi⟩
    simp [hs, hlt]
  · simp [hs, hop, eq_comm]

/-- The two values of four bits from 14 on. -/
theorem fourteen_le_toNat_iff {op : BitVec 4} : 14 ≤ op.toNat ↔ op = 14#4 ∨ op = 15#4 := by
  have := op.isLt
  simp only [← BitVec.toNat_inj, BitVec.toNat_ofNat]
  omega

/-- Settles O5: of the two things a step can do, it refuses on the reserved codes only; and there is no
cause of a fault (60_exceptions.md R240). -/
theorem exactlyReservedCodesAreRefused : Obligations.ExactlyReservedCodesAreRefused := by
  refine fun s => ⟨?_, fun why h => (step_eq_refused_iff.mp h).2, nofun⟩
  simp only [step_eq_refused_iff, exists_and_left, exists_eq, and_true, fourteen_le_toNat_iff]

/-- Settles O7: an assigned code selects an operation, and every operation answers. -/
theorem everyAssignedRequestIsAnswered : Obligations.EveryAssignedRequestIsAnswered := by
  refine ⟨fun s hlt => ?_, fun i s => ⟨_, exec_eq_after i s⟩⟩
  obtain ⟨i, hi⟩ := exists_decodeOp_iff.mpr hlt
  exact ⟨_, step_eq_settle hi⟩

/-- `Eval` reads the operand ports below the operation's count and no other port (R64). -/
theorem eval_congr_ports (nan : NanSite → F64) (i : Instr) {r r' : Request} (h0 : r.a0 = r'.a0)
    (h1 : 2 ≤ arity i → r.a1 = r'.a1) (h2 : 3 ≤ arity i → r.a2 = r'.a2)
    (h3 : 4 ≤ arity i → r.a3 = r'.a3) : eval nan i r = eval nan i r' := by
  cases i with
  | mix | hash1 | unit1 => simp only [eval, h0]
  | hash2 | unit2 => simp only [eval, h0, h1 (by decide)]
  | hash3 | unit3 | hslr | hslg | hslb | argb3 => simp only [eval, h0, h1 (by decide), h2 (by decide)]
  | hash4 | unit4 | argb4 => simp only [eval, h0, h1 (by decide), h2 (by decide), h3 (by decide)]

theorem State.nanAt_congr {s t : State} (h : s.draw = t.draw) : s.nanAt = t.nanAt := by
  funext site
  rw [State.nanAt, State.nanAt, h]

/-- Settles O10: both results are `Eval` under the same draw, which reads the agreeing ports only. -/
theorem unreadPortsDoNotMatter : Obligations.UnreadPortsDoNotMatter := by
  intro i s t hdraw h0 h1 h2 h3
  refine ⟨_, _, exec_eq_after i s, exec_eq_after i t, ?_⟩
  rw [State.after_res, State.after_res, State.nanAt_congr hdraw]
  exact eval_congr_ports _ i h0 h1 h2 h3

/-! ### ARGB3 and ARGB4 (R70, 45_channel_packer.md R223, R224) -/

theorem pack_toNat (a r g b : Byte) :
    (pack a r g b).toNat = a.toNat * 2 ^ 24 + r.toNat * 2 ^ 16 + g.toNat * 2 ^ 8 + b.toNat := by
  have hb := b.isLt
  have hgb : g.toNat <<< 8 + b.toNat < 2 ^ 16 := by rw [Nat.shiftLeft_eq]; omega
  have hrgb : r.toNat <<< 16 + (g.toNat <<< 8 + b.toNat) < 2 ^ 24 := by
    rw [Nat.shiftLeft_eq r.toNat]; omega
  have hor : (pack a r g b).toNat =
      a.toNat <<< 24 ||| (r.toNat <<< 16 ||| (g.toNat <<< 8 ||| b.toNat)) := by
    simp only [pack, BitVec.or_assoc, BitVec.toNat_or, BitVec.toNat_shiftLeft, BitVec.toNat_setWidth,
      Nat.shiftLeft_eq]
    congr <;> omega
  rw [hor, ← Nat.shiftLeft_add_eq_or_of_lt hb, ← Nat.shiftLeft_add_eq_or_of_lt hgb,
    ← Nat.shiftLeft_add_eq_or_of_lt hrgb]
  simp only [Nat.shiftLeft_eq]
  omega

/-- Each byte of a packed colour stands in its own field of the port, with zeros above (R65, R223). -/
theorem zext64_pack_fields (a r g b : Byte) :
    (zext64 (pack a r g b)).extractLsb' 24 8 = a ∧ (zext64 (pack a r g b)).extractLsb' 16 8 = r ∧
    (zext64 (pack a r g b)).extractLsb' 8 8 = g ∧ (zext64 (pack a r g b)).extractLsb' 0 8 = b ∧
    (zext64 (pack a r g b)).extractLsb' 32 32 = 0 := by
  simp only [← BitVec.toNat_inj, BitVec.extractLsb'_toNat, Nat.shiftRight_eq_div_pow, zext64,
    BitVec.toNat_setWidth, pack_toNat, BitVec.ofNat_eq_ofNat,
    BitVec.toNat_ofNat]
  omega

/-- Where `a3` packs to the wired alpha, under any draw, the two packers give the same outcome. -/
theorem exec_argb3_eq_argb4 {s : State} {d : F64} (h : chan nanByte d s.req.a3 = alphaOpaque) :
    exec .argb3 s = exec .argb4 s := by
  rw [chan_draw nanByte d (s.nanAt .chanScale)] at h
  simp only [exec_eq_after, State.after, eval, h]

/-- Settles O54: the draw does not reach a channel's byte, 1.0 packs to the opaque alpha, and the
fields of the packed word are the four bytes. -/
theorem opaquePackingAgrees : Obligations.OpaquePackingAgrees := by
  refine ⟨fun s d h => exec_argb3_eq_argb4 h, fun s h => ?_, fun s d => ?_⟩
  · have hone : chan nanByte 0 kOne = alphaOpaque := by decide +kernel
    exact exec_argb3_eq_argb4 (h ▸ hone)
  · refine ⟨_, exec_eq_after .argb4 s, ?_⟩
    simp only [chan_draw nanByte d (s.nanAt .chanScale)]
    exact zext64_pack_fields _ _ _ _

/-! ### Hexadecimal operands (R69 a) -/

theorem hexDigitValue_hexDigitChar {d : Nat} (h : d < 16) :
    hexDigitValue (hexDigitChar d) = some d := by
  interval_cases d <;> rfl

theorem length_hexDigits (n v : Nat) : (hexDigits n v).length = n := by
  induction n with
  | zero => rfl
  | succ n ih => rw [hexDigits, List.length_cons, ih]

/-- Reading `n` written digits takes up the last `n` digits of the number, whatever was read before. -/
theorem hexValue_hexDigits (n acc v : Nat) :
    hexValue acc (hexDigits n v) = some (acc * 16 ^ n + v % 16 ^ n) := by
  induction n generalizing acc with
  | zero => simp [hexDigits, hexValue, Nat.mod_one]
  | succ n ih =>
    simp only [hexDigits, hexValue, hexDigitValue_hexDigitChar (Nat.mod_lt _ (by decide : 0 < 16)),
      ih, Option.some.injEq]
    rw [pow_succ, Nat.mod_mul]
    ring

/-- Settles O55: 16 digits hold the whole word. -/
theorem hexOperandReadsBack : Obligations.HexOperandReadsBack := by
  intro w
  have hlen : (renderBits w).length = 18 := by simp [renderBits, length_hexDigits]
  have hval : hexValue 0 ((renderBits w).drop 2) = some w.toNat := by
    rw [show (renderBits w).drop 2 = hexDigits 16 w.toNat from rfl, hexValue_hexDigits,
      Nat.mod_eq_of_lt (show w.toNat < 16 ^ 16 from w.isLt), Nat.zero_mul, Nat.zero_add]
  have htake : (renderBits w).take 2 = ['0', 'x'] := rfl
  rw [parseOperand, if_pos htake, if_pos hlen, hval, Option.map_some, BitVec.ofNat_toNat,
    BitVec.setWidth_eq]

/-! ### Lines (R69, R264) -/

/-- The kept results after `lines` are answered with `words`: the latest in front (log entry 8). -/
def envAfter (env : Env) (lines : List (Line × Nat)) (words : List Word) : Env :=
  ((lines.map fun e => e.1.name).zip words).reverse ++ env

/-- The first line's result is kept before the others are answered. -/
theorem envAfter_cons (env : Env) (e : Line × Nat) (lines : List (Line × Nat)) (w : Word)
    (words : List Word) :
    envAfter env (e :: lines) (w :: words) = envAfter ((e.1.name, w) :: env) lines words := by
  simp [envAfter]

/-- `w` is a result the rules allow for a line whose labels are looked up in `env`. -/
def AnswersLine (env : Env) (l : Line) (w : Word) : Prop :=
  ∃ (vs : List Word) (r : Request), allSome (l.operands.map (resolve env)) = some vs ∧
    vs.length = arity l.instr ∧ Allowed (lineRequest l.instr vs r) w

/-- A list of options that holds no `none` is the list of its values. -/
theorem exists_allSome {α : Type} {os : List (Option α)} (h : ∀ o ∈ os, ∃ x, o = some x) :
    ∃ xs, allSome os = some xs ∧ xs.length = os.length := by
  induction os with
  | nil => exact ⟨[], rfl, rfl⟩
  | cons o os ih =>
    obtain ⟨x, rfl⟩ := h o (by simp)
    obtain ⟨xs, hxs, hlen⟩ := ih fun o ho => h o (by simp [ho])
    exact ⟨x :: xs, by simp [allSome, hxs], by simp [hlen]⟩

/-- A label that was kept has a value. -/
theorem exists_resolve_label {env : Env} {n : List Char} (h : n ∈ env.map Prod.fst) :
    ∃ w, resolve env (.label n) = some w := by
  obtain ⟨e, he, hn⟩ := List.mem_map.mp h
  have hsome : (env.find? fun e => decide (e.1 = n)).isSome :=
    List.find?_isSome.mpr ⟨e, he, decide_eq_true hn⟩
  obtain ⟨e', he'⟩ := Option.isSome_iff_exists.mp hsome
  exact ⟨e'.2, by rw [resolve, he', Option.map_some]⟩

/-- What the check of a line asks: the operand count of its operation, and labels of earlier lines. -/
theorem line_wellFormed_inv {earlier : List (List Char)} {l : Line} (h : l.wellFormed earlier = true) :
    l.operands.length = arity l.instr ∧ ∀ n, Operand.label n ∈ l.operands → n ∈ earlier := by
  rw [Line.wellFormed, Bool.and_eq_true, List.all_eq_true] at h
  obtain ⟨hcount, hlabels⟩ := h
  exact ⟨of_decide_eq_true hcount, fun n hn => of_decide_eq_true (hlabels _ hn)⟩

/-- Operands whose labels were all kept have a value each (R69). -/
theorem exists_operandValues {env : Env} {os : List Operand}
    (h : ∀ n, Operand.label n ∈ os → n ∈ env.map Prod.fst) :
    ∃ vs, allSome (os.map (resolve env)) = some vs ∧ vs.length = os.length := by
  have hvals : ∀ v ∈ os.map (resolve env), ∃ w, v = some w := by
    rintro _ hv
    obtain ⟨o, ho, rfl⟩ := List.mem_map.mp hv
    cases o with
    | bits w => exact ⟨w, rfl⟩
    | real negative digits exp10 => exact ⟨literalBits negative digits exp10, rfl⟩
    | label n => exact exists_resolve_label (h n ho)
  simpa using exists_allSome hvals

/-- A well-formed line is answered, and its answer is kept in front (R69, R264). -/
theorem runLine_of_wellFormed {env : Env} {l : Line} (s : State) (draw : Nat)
    (h : l.wellFormed (env.map Prod.fst) = true) :
    ∃ w t, runLine env s l draw = some ((l.name, w) :: env, t) ∧ AnswersLine env l w := by
  obtain ⟨hlen, hlabels⟩ := line_wellFormed_inv h
  obtain ⟨vs, hvs, hvslen⟩ := exists_operandValues hlabels
  have hop : decodeOp (lineRequest l.instr vs s.req).op = .ok l.instr := decodeOp_encodeOp _
  have hset := s.settled_present (lineRequest l.instr vs s.req) draw
  refine ⟨_, s.present (lineRequest l.instr vs s.req) draw, ?_, vs, s.req, hvs,
    hvslen.trans hlen, hset.allowed hop⟩
  simp only [runLine, if_pos hlen, hvs, step_of_settled hop hset]

/-- Induction on the lines over all kept results: each line's name joins them before the next line. -/
theorem runLines_of_wellFormed (lines : List (Line × Nat)) (env : Env) (s : State)
    (h : wellFormedLines (env.map Prod.fst) (lines.map Prod.fst) = true) :
    ∃ words s', words.length = lines.length ∧
      runLines env s lines = some (envAfter env lines words, s') ∧
      ∀ (k : Nat) (l : Line) (draw : Nat) (w : Word), lines[k]? = some (l, draw) →
        words[k]? = some w → AnswersLine (envAfter env (lines.take k) words) l w := by
  induction lines generalizing env s with
  | nil => exact ⟨[], s, rfl, rfl, by simp⟩
  | cons e rest ih =>
    obtain ⟨l, draw⟩ := e
    rw [List.map_cons, wellFormedLines, Bool.and_eq_true] at h
    obtain ⟨hl, hrest⟩ := h
    obtain ⟨w, t, hrun, hw⟩ := runLine_of_wellFormed s draw hl
    obtain ⟨words, s', hlen, hruns, hwords⟩ := ih ((l.name, w) :: env) t hrest
    refine ⟨w :: words, s', by simp [hlen], ?_, fun k l' draw' w' hk hw' => ?_⟩
    · rw [runLines, hrun, envAfter_cons]
      exact hruns
    · cases k with
      | zero =>
        simp only [List.getElem?_cons_zero, Option.some.injEq, Prod.mk.injEq] at hk hw'
        obtain ⟨rfl, -⟩ := hk
        exact hw' ▸ hw
      | succ k =>
        rw [List.take_succ_cons, envAfter_cons]
        exact hwords k l' draw' w' (by simpa using hk) (by simpa using hw')

/-- Settles O56: every operand of a well-formed line has a value, so every line is answered in turn. -/
theorem wellFormedLinesAllGetResults : Obligations.WellFormedLinesAllGetResults :=
  runLines_of_wellFormed

/-! ### Pseudo-operations (R70) -/

/-- The operations that rows of the table list under a name. -/
def pseudoOps (name : List Char) : List Instr :=
  (pseudoTable.filter fun e => e.1 = name).map Prod.snd

/-- The first of a list of operations with a given operand count. -/
def byCount : List Instr → Nat → Option Instr
  | [], _ => none
  | i :: is, n => if n = arity i then some i else byCount is n

theorem byCount_eq_find? (is : List Instr) (n : Nat) :
    byCount is n = is.find? fun i => arity i = n := by
  induction is with
  | nil => rfl
  | cons i is ih =>
    by_cases h : arity i = n
    · rw [byCount, if_pos h.symm, List.find?_cons_of_pos (by simpa using h)]
    · rw [byCount, if_neg (Ne.symm h), List.find?_cons_of_neg (by simpa using h), ih]

/-- A name expands by argument count among the operations listed under it. -/
theorem expandPseudo_eq_byCount {name : List Char} {is : List Instr} (h : pseudoOps name = is)
    (n : Nat) : expandPseudo name n = byCount is n := by
  rw [← h, byCount_eq_find?, pseudoOps, List.find?_map, List.find?_filter]
  simp [expandPseudo]

theorem mem_pseudoTable_of_expandPseudo {name : List Char} {n : Nat} {i : Instr}
    (h : expandPseudo name n = some i) : (name, i) ∈ pseudoTable := by
  obtain ⟨e, he, rfl⟩ := Option.map_eq_some_iff.mp h
  obtain ⟨rfl, -⟩ : e.1 = name ∧ arity e.2 = n := by simpa using List.find?_some he
  exact List.mem_of_find?_eq_some he

/-- Settles O57: the operations listed under each name, and the names of all rows. -/
theorem pseudoOperationsExpandByCount : Obligations.PseudoOperationsExpandByCount := by
  refine ⟨expandPseudo_eq_byCount (is := [.hash1, .hash2, .hash3, .hash4]) (by decide),
    expandPseudo_eq_byCount (is := [.unit1, .unit2, .unit3, .unit4]) (by decide),
    expandPseudo_eq_byCount (is := [.hash1]) (by decide),
    expandPseudo_eq_byCount (is := [.hash2]) (by decide),
    expandPseudo_eq_byCount (is := [.hash3]) (by decide),
    expandPseudo_eq_byCount (is := [.hash4]) (by decide),
    expandPseudo_eq_byCount (is := [.unit1]) (by decide),
    expandPseudo_eq_byCount (is := [.unit2]) (by decide),
    expandPseudo_eq_byCount (is := [.unit3]) (by decide),
    expandPseudo_eq_byCount (is := [.unit4]) (by decide),
    expandPseudo_eq_byCount (is := [.mix]) (by decide),
    expandPseudo_eq_byCount (is := [.hslr]) (by decide),
    expandPseudo_eq_byCount (is := [.hslg]) (by decide),
    expandPseudo_eq_byCount (is := [.hslb]) (by decide),
    expandPseudo_eq_byCount (is := [.argb3, .argb4]) (by decide), fun name n i h => ?_⟩
  refine (?_ : ∀ e ∈ pseudoTable, e.1 ∈ _) _ (mem_pseudoTable_of_expandPseudo h)
  decide

end Sys2Proof.Machine

/-! The rules of 40_numerics.md: the integer primitives (R93 to R96), the binary64 format and its
rounding (R100 to R102), the arithmetic, the comparisons and the floor (R103 to R107), and the
conversion of an integer (R111). -/

namespace Sys2Proof.Machine

/-! ### Integer primitives (R93 to R96) -/

theorem shl_toNat (a : Word) (n : Nat) : (shl a n).toNat = a.toNat * 2 ^ n % 2 ^ 64 := by
  rw [shl, BitVec.toNat_shiftLeft, Nat.shiftLeft_eq]

theorem lshr_toNat (a : Word) (n : Nat) : (lshr a n).toNat = a.toNat / 2 ^ n := by
  rw [lshr, BitVec.toNat_ushiftRight, Nat.shiftRight_eq_div_pow]

theorem getLsbD_shl (a : Word) (n : Nat) {i : Nat} (hi : i < 64) :
    (shl a n).getLsbD i = (decide (n ≤ i) && a.getLsbD (i - n)) := by
  simp only [shl, BitVec.getLsbD_shiftLeft, hi, decide_true, Bool.true_and, ← decide_not, not_lt]

theorem getLsbD_lshr (a : Word) (n i : Nat) : (lshr a n).getLsbD i = a.getLsbD (i + n) := by
  rw [lshr, BitVec.getLsbD_ushiftRight, Nat.add_comm]

/-- The bits that a right shift fills in at the top are zeros (R94). -/
theorem getLsbD_lshr_of_le {n : Nat} (a : Word) (hn : n ≤ 63) (i : Nat) :
    (lshr a n).getLsbD i = (decide (i ≤ 63 - n) && a.getLsbD (i + n)) := by
  rw [getLsbD_lshr]
  by_cases hi : i ≤ 63 - n
  · rw [decide_eq_true hi, Bool.true_and]
  · rw [BitVec.getLsbD_of_ge a (i + n) (by omega), Bool.and_false]

/-- A rotate moves bit `i - n` modulo 64 to bit `i`: the two shifts overlap nowhere (R95). -/
theorem getLsbD_rotl {n i : Nat} (a : Word) (hn : n ≤ 63) (hi : i < 64) :
    (rotl a n).getLsbD i = a.getLsbD ((i + 64 - n) % 64) := by
  rw [rotl, BitVec.getLsbD_or, getLsbD_shl a n hi, getLsbD_lshr]
  by_cases hni : n ≤ i
  · rw [decide_eq_true hni, Bool.true_and, BitVec.getLsbD_of_ge a (i + (64 - n)) (by omega),
      Bool.or_false, show (i + 64 - n) % 64 = i - n by omega]
  · rw [decide_eq_false hni, Bool.false_and, Bool.false_or,
      show (i + 64 - n) % 64 = i + (64 - n) by omega]

/-- Bit `j` of a word is bit `j + n` modulo 64 of its rotate, so the rotate loses nothing. -/
theorem rotl_injective {n : Nat} (hn : n ≤ 63) : Function.Injective fun a : Word => rotl a n := by
  intro a b (hab : rotl a n = rotl b n)
  refine BitVec.eq_of_getLsbD_eq fun j hj => ?_
  have hbit := congrArg (BitVec.getLsbD · ((j + n) % 64)) hab
  have hmod : (j + n) % 64 < 64 := by omega
  have hback : ((j + n) % 64 + 64 - n) % 64 = j := by omega
  simpa only [getLsbD_rotl _ hn hmod, hback] using hbit

theorem rotl_seventeen (a : Word) : rotl a 17 = a.extractLsb' 0 47 ++ a.extractLsb' 47 17 := by
  refine BitVec.eq_of_getLsbD_eq fun i hi => ?_
  rw [getLsbD_rotl a (by omega) hi, BitVec.getLsbD_append, BitVec.getLsbD_extractLsb',
    BitVec.getLsbD_extractLsb']
  by_cases h : i < 17
  · rw [if_pos h, decide_eq_true h, Bool.true_and, show (i + 64 - 17) % 64 = 47 + i by omega]
  · rw [if_neg h, decide_eq_true (by omega : i - 17 < 47), Bool.true_and,
      show (i + 64 - 17) % 64 = 0 + (i - 17) by omega]

/-- Settles O17: the shifts as numbers and bit by bit, the rotate bit by bit; an injection of the
finitely many words into themselves is a bijection. -/
theorem integerPrimitivesAsDefined : Obligations.IntegerPrimitivesAsDefined := by
  refine ⟨fun a n hn => ⟨shl_toNat a n, lshr_toNat a n,
      fun i hi => ⟨getLsbD_shl a n hi, getLsbD_lshr_of_le a hn i⟩⟩,
    fun n _ hn => ⟨fun a i hi => getLsbD_rotl a hn hi, fun _ => rfl,
      Finite.injective_iff_bijective.mp (rotl_injective hn)⟩,
    rotl_seventeen, by decide, BitVec.toNat_add⟩

/-! ### The format (R100) -/

theorem isNaN_iff {x : F64} : isNaN x = true ↔ expField x = 2047 ∧ fracField x ≠ 0 := by
  simp [isNaN]

theorem isInf_iff {x : F64} : isInf x = true ↔ expField x = 2047 ∧ fracField x = 0 := by
  simp [isInf]

theorem isZero_iff {x : F64} : isZero x = true ↔ expField x = 0 ∧ fracField x = 0 := by
  simp [isZero]

theorem isSubnormal_iff {x : F64} : isSubnormal x = true ↔ expField x = 0 ∧ fracField x ≠ 0 := by
  simp [isSubnormal]

theorem isNormal_iff {x : F64} : isNormal x = true ↔ 1 ≤ expField x ∧ expField x ≤ 2046 := by
  simp [isNormal]

theorem isFinite_iff {x : F64} : isFinite x = true ↔ expField x ≤ 2046 := by
  simp [isFinite]

/-- The exponent field and whether the fraction is zero decide the class, one of five. -/
theorem exactly_one_class (x : F64) :
    ([isZero x, isSubnormal x, isNormal x, isInf x, isNaN x].filter id).length = 1 := by
  have he := expField_lt x
  obtain h0 | h2047 | hmid : expField x = 0 ∨ expField x = 2047 ∨
      (expField x ≠ 0 ∧ expField x ≠ 2047 ∧ 1 ≤ expField x ∧ expField x ≤ 2046) := by omega
  · by_cases hf : fracField x = 0 <;> simp [isZero, isSubnormal, isNormal, isInf, isNaN, h0, hf]
  · by_cases hf : fracField x = 0 <;> simp [isZero, isSubnormal, isNormal, isInf, isNaN, h2047, hf]
  · simp [isZero, isSubnormal, isNormal, isInf, isNaN, hmid]

theorem isFinite_iff_classes {x : F64} :
    isFinite x = true ↔ isZero x = true ∨ isSubnormal x = true ∨ isNormal x = true := by
  rw [isFinite_iff, isZero_iff, isSubnormal_iff, isNormal_iff]
  omega

theorem isZero_iff_eq {x : F64} :
    isZero x = true ↔ x = 0x0000000000000000 ∨ x = 0x8000000000000000 := by
  constructor
  · intro h
    cases hs : signBit x with
    | false => exact .inl (by rw [eq_zeroOf h, hs]; rfl)
    | true => exact .inr (by rw [eq_zeroOf h, hs]; rfl)
  · rintro (rfl | rfl) <;> rfl

theorem isInf_iff_eq {x : F64} :
    isInf x = true ↔ x = 0x7FF0000000000000 ∨ x = 0xFFF0000000000000 := by
  constructor
  · intro h
    cases hs : signBit x with
    | false => exact .inl (by rw [eq_infOf h, hs]; rfl)
    | true => exact .inr (by rw [eq_infOf h, hs]; rfl)
  · rintro (rfl | rfl) <;> rfl

theorem pow2_dvd_pow2 {m n : Nat} (h : m ≤ n) : pow2 m ∣ pow2 n := by
  simp only [pow2_eq]
  exact Nat.pow_dvd_pow 2 h

theorem pow2_cast (n : Nat) : (pow2 n : ℚ) = 2 ^ n := by
  rw [pow2_eq, Nat.cast_pow, Nat.cast_ofNat]

theorem pow2_cast_pos (n : Nat) : (0 : ℚ) < pow2 n := Nat.cast_pos.mpr (pow2_pos n)

theorem pow2_cast_ne_zero (n : Nat) : (pow2 n : ℚ) ≠ 0 := (pow2_cast_pos n).ne'

theorem units_cast (x : F64) :
    (units x : ℚ) = (if signBit x then -1 else 1) * (magUnits x : ℚ) := by
  unfold units
  split <;> simp

/-- The value of a finite datum by its sign and its magnitude (R100). -/
theorem val_eq_sign_mul (x : F64) :
    val x = (if signBit x then -1 else 1) * ((magUnits x : ℚ) / pow2 1074) := by
  rw [val, units_cast, mul_div_assoc]

theorem val_of_isZero {x : F64} (h : isZero x = true) : val x = 0 := by
  rw [val, units_eq_zero_iff.mpr h, Int.cast_zero, zero_div]

theorem val_of_isSubnormal {x : F64} (h : isSubnormal x = true) :
    val x = (if signBit x then -1 else 1) * (fracField x : ℚ) * (2 : ℚ) ^ (-1074 : ℤ) := by
  rw [isSubnormal_iff] at h
  obtain ⟨he, -⟩ := h
  rw [val_eq_sign_mul, magUnits, if_pos he, pow2_cast, mul_assoc, div_eq_mul_inv,
    show (-1074 : ℤ) = -((1074 : ℕ) : ℤ) from rfl, zpow_neg, zpow_natCast]

theorem val_of_isNormal {x : F64} (h : isNormal x = true) :
    val x = (if signBit x then -1 else 1) * (2 ^ 52 + (fracField x : ℚ)) *
      (2 : ℚ) ^ ((expField x : ℤ) - 1075) := by
  rw [isNormal_iff] at h
  obtain ⟨he, -⟩ := h
  have hexp : (expField x : ℤ) - 1075 = ((expField x - 1 : ℕ) : ℤ) - ((1074 : ℕ) : ℤ) := by omega
  rw [val_eq_sign_mul, magUnits_of_expField_pos he, hexp, zpow_sub₀ two_ne_zero, zpow_natCast,
    zpow_natCast, Nat.cast_mul, pow2_cast, pow2_cast, mul_div_assoc, mul_assoc]
  push_cast
  rfl

/-- Negation flips the top bit and no other (R100). -/
theorem getLsbD_fneg (x : F64) (k : Nat) :
    (fneg x).getLsbD k = if k = 63 then !x.getLsbD k else x.getLsbD k := by
  rw [fneg, show (0x8000000000000000 : F64) = BitVec.twoPow 64 63 from rfl, BitVec.getLsbD_xor,
    BitVec.getLsbD_twoPow]
  by_cases h : k = 63
  · simp [h]
  · simp [h, Ne.symm h]

theorem toNat_eq_fields_of_sign (x : F64) :
    x.toNat = (if signBit x then 2 ^ 63 else 0) + expField x * 2 ^ 52 + fracField x := by
  rw [toNat_eq_fields]
  cases signBit x <;> simp

/-- Settles O30: the fields decide the class, the pattern and the value. -/
theorem formatGivesClassAndValue : Obligations.FormatGivesClassAndValue := fun x =>
  ⟨exactly_one_class x, isFinite_iff_classes, toNat_eq_fields_of_sign x, isZero_iff_eq,
    isInf_iff_eq, isNaN_iff, val_of_isZero, val_of_isSubnormal, val_of_isNormal,
    fun k _ => getLsbD_fneg x k⟩

/-! ### Significand and exponent (R100) -/

/-- The integer that stands before the power of two in the value of a finite datum (R100). -/
def significand (x : F64) : Nat := if expField x = 0 then fracField x else 2 ^ 52 + fracField x

theorem significand_of_expField_zero {x : F64} (h : expField x = 0) : significand x = fracField x :=
  if_pos h

theorem significand_of_expField_pos {x : F64} (h : 0 < expField x) :
    significand x = 2 ^ 52 + fracField x :=
  if_neg h.ne'

theorem magUnits_eq_significand_mul (x : F64) :
    magUnits x = significand x * pow2 (expField x - 1) := by
  rcases Nat.eq_zero_or_pos (expField x) with h | h
  · rw [significand_of_expField_zero h, magUnits, if_pos h, h]
    exact (Nat.mul_one _).symm
  · rw [significand_of_expField_pos h, magUnits_of_expField_pos h]

theorem significand_lt (x : F64) : significand x < pow2 53 := by
  have hf := fracField_lt x
  rw [pow2_eq]
  rcases Nat.eq_zero_or_pos (expField x) with h | h
  · rw [significand_of_expField_zero h]
    omega
  · rw [significand_of_expField_pos h]
    omega

theorem le_significand {x : F64} (h : 0 < expField x) : pow2 52 ≤ significand x := by
  rw [significand_of_expField_pos h]
  exact Nat.le_add_right _ _

/-- The significand has the parity of the fraction field. -/
theorem significand_mod_two (x : F64) : significand x % 2 = fracField x % 2 := by
  rcases Nat.eq_zero_or_pos (expField x) with h | h
  · rw [significand_of_expField_zero h]
  · rw [significand_of_expField_pos h]
    omega

/-! ### Rounding (R102) -/

/-- No integer is nearer to `n / d`, and where another one is equally near, the answer is even. -/
theorem nearestEven_nearest (n k : Nat) {d : Nat} (hd : 0 < d) :
    |(nearestEven n d * d : ℤ) - n| ≤ |(k * d : ℤ) - n| ∧
      (|(nearestEven n d * d : ℤ) - n| = |(k * d : ℤ) - n| → k ≠ nearestEven n d →
        nearestEven n d % 2 = 0) := by
  obtain ⟨hlo, hhi, heven⟩ := nearestEven_near n hd
  generalize nearestEven n d = r at *
  obtain ⟨hhalf, htie⟩ : 2 * |(r * d : ℤ) - n| ≤ d ∧
      (2 * |(r * d : ℤ) - n| = d → r % 2 = 0) := by
    zify at hlo hhi heven ⊢
    rcases abs_cases ((r * d : ℤ) - n) with ⟨habs, -⟩ | ⟨habs, -⟩ <;> rw [habs]
    · exact ⟨by linarith, fun h => heven (.inr (by linarith))⟩
    · exact ⟨by linarith, fun h => heven (.inl (by linarith))⟩
  rcases eq_or_ne k r with rfl | hk
  · exact ⟨le_rfl, fun _ h => absurd rfl h⟩
  have hgap : (d : ℤ) ≤ |(k * d : ℤ) - n| + |(r * d : ℤ) - n| := by
    have hone : (1 : ℤ) ≤ |(k : ℤ) - r| := Int.one_le_abs (sub_ne_zero.mpr (by exact_mod_cast hk))
    calc (d : ℤ) ≤ |(k : ℤ) - r| * d := le_mul_of_one_le_left (Int.natCast_nonneg d) hone
      _ = |((k * d : ℤ) - n) - ((r * d : ℤ) - n)| := by
        rw [sub_sub_sub_cancel_right, ← sub_mul, abs_mul, Nat.abs_cast]
      _ ≤ _ := abs_sub _ _
  exact ⟨by linarith, fun heq _ => htie (by linarith)⟩

/-- The exponent of the rounding unit, in units of 2^-1074 (R102 (1)). -/
def rndExp (n d : Nat) : Nat := Nat.log2 (n * pow2 1074 / d) - 52

/-- The rounded number of rounding units (R102 (2)). -/
def rndSig (n d : Nat) : Nat := nearestEven (n * pow2 1074) (d * pow2 (rndExp n d))

theorem rndExp_eq (n d : Nat) : rndExp n d = Nat.log2 (n * pow2 1074 / d) - 52 := rfl

theorem rndSig_eq (n d : Nat) :
    rndSig n d = nearestEven (n * pow2 1074) (d * pow2 (rndExp n d)) := rfl

theorem rndUnits_eq (n d : Nat) : rndUnits n d = rndSig n d * pow2 (rndExp n d) := rfl

/-- The number to be rounded lies below `2^53` rounding units. -/
theorem lt_pow2_rndExp (n : Nat) {d : Nat} (hd : 0 < d) :
    n * pow2 1074 < pow2 (53 + rndExp n d) * d := by
  rw [← Nat.div_lt_iff_lt_mul hd]
  rcases eq_or_ne (n * pow2 1074 / d) 0 with h0 | h0
  · rw [h0]
    exact pow2_pos _
  · exact lt_of_lt_of_le (log2_bounds h0).2 (pow2_le (by rw [rndExp_eq]; omega))

/-- Above the subnormal range it is at least `2^52` rounding units. -/
theorem pow2_rndExp_le {n d : Nat} (hd : 0 < d) (h : 0 < rndExp n d) :
    pow2 (52 + rndExp n d) * d ≤ n * pow2 1074 := by
  have h0 : n * pow2 1074 / d ≠ 0 := by
    rintro h0
    rw [rndExp_eq, h0] at h
    exact absurd h (by decide)
  rw [← Nat.le_div_iff_mul_le hd]
  rw [rndExp_eq] at h ⊢
  exact le_trans (pow2_le (by omega)) (log2_bounds h0).1

theorem rndSig_le (n : Nat) {d : Nat} (hd : 0 < d) : rndSig n d ≤ pow2 53 := by
  refine nearestEven_le (Nat.mul_pos hd (pow2_pos _)) ?_
  have h := (lt_pow2_rndExp n hd).le
  rwa [pow2_add, Nat.mul_assoc, Nat.mul_comm (pow2 (rndExp n d))] at h

/-- Above the subnormal range the rounded number is at least `2^52` rounding units too. -/
theorem le_rndSig {n d : Nat} (hd : 0 < d) (h : 0 < rndExp n d) : pow2 52 ≤ rndSig n d := by
  refine le_trans ?_ (le_nearestEven _ _)
  rw [Nat.le_div_iff_mul_le (Nat.mul_pos hd (pow2_pos _)), Nat.mul_comm d, ← Nat.mul_assoc,
    ← pow2_add]
  exact pow2_rndExp_le hd h

/-- How far `k` units of 2^-1074 are from `n / d`, counted in `d`-ths of a unit. -/
def unitDist (n d k : Nat) : ℤ := |(k * d : ℤ) - (n * pow2 1074 : ℕ)|

theorem unitDist_eq (n d k : Nat) : unitDist n d k = |(k * d : ℤ) - (n * pow2 1074 : ℕ)| := rfl

theorem unitDist_mul_pow2 (n d r j : Nat) :
    unitDist n d (r * pow2 j) = |(r * (d * pow2 j : ℕ) : ℤ) - (n * pow2 1074 : ℕ)| := by
  rw [unitDist_eq, Nat.cast_mul r, Nat.cast_mul d, mul_right_comm, mul_assoc]

theorem unitDist_of_le {n d k : Nat} (h : k * d ≤ n * pow2 1074) :
    unitDist n d k = (n * pow2 1074 : ℕ) - (k * d : ℕ) := by
  rw [unitDist_eq, ← Nat.cast_mul, abs_of_nonpos (by omega), neg_sub]

/-- Among the multiples of the rounding unit the rounded magnitude is the nearest, even on a tie. -/
theorem rndUnits_nearest_of_dvd {n d k : Nat} (hd : 0 < d) (hk : pow2 (rndExp n d) ∣ k) :
    unitDist n d (rndUnits n d) ≤ unitDist n d k ∧
      (unitDist n d (rndUnits n d) = unitDist n d k → k ≠ rndUnits n d → rndSig n d % 2 = 0) := by
  obtain ⟨c, rfl⟩ := hk
  obtain ⟨hle, htie⟩ :=
    nearestEven_nearest (n * pow2 1074) c (Nat.mul_pos hd (pow2_pos (rndExp n d)))
  rw [Nat.mul_comm _ c, rndUnits_eq, unitDist_mul_pow2, unitDist_mul_pow2]
  exact ⟨hle, fun heq hne => htie heq fun h => hne (by rw [h]; rfl)⟩

/-- A finite magnitude that is no multiple of the rounding unit lies below the binade that is
rounded in. -/
theorem magUnits_lt_of_not_dvd {y : F64} {j : Nat} (h : ¬ pow2 j ∣ magUnits y) :
    0 < j ∧ magUnits y < pow2 (52 + j) := by
  have hy := magUnits_eq_significand_mul y
  have hlt : expField y - 1 < j := by
    by_contra hge
    exact h (hy ▸ (pow2_dvd_pow2 (not_lt.mp hge)).mul_left _)
  refine ⟨by omega, ?_⟩
  calc magUnits y < pow2 53 * pow2 (expField y - 1) :=
        hy ▸ Nat.mul_lt_mul_of_pos_right (significand_lt y) (pow2_pos _)
    _ = pow2 (53 + (expField y - 1)) := (pow2_add _ _).symm
    _ ≤ pow2 (52 + j) := pow2_le (by omega)

/-- No finite magnitude is nearer than the rounded one, and a tie goes to the even significand. -/
theorem rndUnits_nearest (n : Nat) {d : Nat} (hd : 0 < d) (y : F64) :
    unitDist n d (rndUnits n d) ≤ unitDist n d (magUnits y) ∧
      (unitDist n d (rndUnits n d) = unitDist n d (magUnits y) →
        magUnits y ≠ rndUnits n d → rndSig n d % 2 = 0) := by
  by_cases hdvd : pow2 (rndExp n d) ∣ magUnits y
  · exact rndUnits_nearest_of_dvd hd hdvd
  -- the least number of the binade stands between `y` and the number to be rounded
  obtain ⟨hj, hlt⟩ := magUnits_lt_of_not_dvd hdvd
  have hmul : pow2 (rndExp n d) ∣ pow2 (52 + rndExp n d) := by rw [pow2_add]; exact dvd_mul_left _ _
  obtain ⟨hle, -⟩ := rndUnits_nearest_of_dvd hd hmul
  have hbase := pow2_rndExp_le hd hj
  have hltd := Nat.mul_lt_mul_of_pos_right hlt hd
  have hstrict : unitDist n d (pow2 (52 + rndExp n d)) < unitDist n d (magUnits y) := by
    rw [unitDist_of_le hbase, unitDist_of_le (hltd.le.trans hbase)]
    omega
  exact ⟨(hle.trans_lt hstrict).le, fun heq => absurd heq (hle.trans_lt hstrict).ne⟩

/-- An even rounded number of rounding units is encoded with an even fraction, also after it has
been carried into the next binade. -/
theorem fracField_even_of_rndSig {n d : Nat} {x : F64} (hd : 0 < d)
    (hx : magUnits x = rndUnits n d) (heven : rndSig n d % 2 = 0) : fracField x % 2 = 0 := by
  rw [← significand_mod_two]
  have hmag := magUnits_eq_significand_mul x
  rw [hx, rndUnits_eq] at hmag
  rcases le_or_gt (expField x - 1) (rndExp n d) with hle | hlt
  · have hsig : significand x = rndSig n d * pow2 (rndExp n d - (expField x - 1)) := by
      refine Nat.eq_of_mul_eq_mul_right (pow2_pos (expField x - 1)) ?_
      rw [← hmag, Nat.mul_assoc, ← pow2_add, Nat.sub_add_cancel hle]
    rw [hsig, Nat.mul_mod, heven, Nat.zero_mul, Nat.zero_mod]
  · have hsig : rndSig n d = significand x * pow2 (expField x - 1 - rndExp n d) := by
      refine Nat.eq_of_mul_eq_mul_right (pow2_pos (rndExp n d)) ?_
      rw [hmag, Nat.mul_assoc, ← pow2_add, Nat.sub_add_cancel hlt.le]
    have htwo : significand x * 2 ≤ rndSig n d := by
      rw [hsig]
      exact Nat.mul_le_mul_left _ (pow2_le (by omega : 1 ≤ expField x - 1 - rndExp n d))
    have hlo := le_significand (x := x) (by omega)
    have hhi := rndSig_le n hd
    rw [pow2_eq] at hlo hhi
    omega

/-- In the topmost binade the rounded number is carried out of it exactly from half a unit below its
end on. -/
theorem rndSig_top_iff {n d : Nat} (hd : 0 < d) (hj : rndExp n d = 2045) :
    pow2 53 ≤ rndSig n d ↔ pow2 54 * (pow2 2044 * d) ≤ n * pow2 1074 + pow2 2044 * d := by
  have hD : d * pow2 (rndExp n d) = 2 * (pow2 2044 * d) := by
    rw [hj, show 2045 = 1 + 2044 from rfl, pow2_add, show pow2 1 = 2 from rfl]
    ring
  have hw : 0 < pow2 2044 * d := Nat.mul_pos (pow2_pos _) hd
  have hnear := nearestEven_near (n * pow2 1074) (Nat.mul_pos hd (pow2_pos (rndExp n d)))
  rw [← rndSig_eq, hD] at hnear
  generalize pow2 2044 * d = w at *
  obtain ⟨hlo, hhi, heven⟩ := hnear
  rw [show pow2 53 = 2 ^ 53 from rfl, show pow2 54 = 2 ^ 54 from rfl]
  constructor
  · intro h
    have := Nat.mul_le_mul_right w h
    have : 2 * rndSig n d * (2 * w) = 4 * (rndSig n d * w) := by ring
    omega
  · intro h
    by_contra hlt
    have hprod : (2 * rndSig n d + 1) * (2 * w) = 4 * (rndSig n d * w) + 2 * w := by ring
    rcases Nat.lt_or_ge (rndSig n d) (2 ^ 53 - 1) with hsmall | hlast
    · have := Nat.mul_le_mul_right w (show rndSig n d + 1 ≤ 2 ^ 53 - 1 from hsmall)
      rw [Nat.add_mul] at this
      omega
    · have hodd : rndSig n d = 2 ^ 53 - 1 := by omega
      rw [hodd] at heven hlo
      have := heven (.inl (by omega))
      omega

/-- In units of 2^-1074 the rounded magnitude reaches 2^1024 exactly from 2^1024 - 2^970 on. -/
theorem pow2_le_rndUnits_iff (n : Nat) {d : Nat} (hd : 0 < d) :
    pow2 2098 ≤ rndUnits n d ↔ pow2 2098 * d ≤ n * pow2 1074 + pow2 2044 * d := by
  rcases lt_trichotomy (rndExp n d) 2045 with hj | hj | hj
  · have htop : pow2 (53 + rndExp n d) ≤ pow2 2097 := pow2_le (by omega)
    have hlast : pow2 2097 + pow2 2044 < pow2 2098 := by decide
    refine iff_of_false (not_le.mpr ?_) (not_le.mpr ?_)
    · calc rndUnits n d ≤ pow2 53 * pow2 (rndExp n d) := Nat.mul_le_mul_right _ (rndSig_le n hd)
        _ = pow2 (53 + rndExp n d) := (pow2_add _ _).symm
        _ < pow2 2098 := by omega
    · calc n * pow2 1074 + pow2 2044 * d < pow2 2097 * d + pow2 2044 * d :=
            Nat.add_lt_add_right ((lt_pow2_rndExp n hd).trans_le (Nat.mul_le_mul_right d htop)) _
        _ = (pow2 2097 + pow2 2044) * d := (Nat.add_mul _ _ _).symm
        _ ≤ pow2 2098 * d := Nat.mul_le_mul_right d hlast.le
  · rw [rndUnits_eq, hj, show 2098 = 53 + 2045 from rfl, pow2_add,
      Nat.mul_le_mul_right_iff (pow2_pos _), rndSig_top_iff hd hj, ← pow2_add,
      show 53 + 2045 = 54 + 2044 from rfl, pow2_add, Nat.mul_assoc]
  · have hlow : pow2 2098 ≤ pow2 (52 + rndExp n d) := pow2_le (by omega)
    refine iff_of_true ?_ ?_
    · rw [pow2_add] at hlow
      exact hlow.trans (Nat.mul_le_mul_right _ (le_rndSig hd (by omega)))
    · exact ((Nat.mul_le_mul_right d hlow).trans (pow2_rndExp_le hd (by omega))).trans
        (Nat.le_add_right _ _)

/-- The distance of a magnitude from a rational, in rationals and in units of 2^-1074. -/
theorem abs_magVal_sub_div (y : F64) (n : Nat) {d : Nat} (hd : 0 < d) :
    |magVal y - (n : ℚ) / d| = (unitDist n d (magUnits y) : ℚ) / (pow2 1074 * d) := by
  have hd' : (0 : ℚ) < d := Nat.cast_pos.mpr hd
  rw [magVal, div_sub_div _ _ (pow2_cast_ne_zero 1074) hd'.ne', abs_div,
    abs_of_pos (mul_pos (pow2_cast_pos 1074) hd'), unitDist_eq, mul_comm _ (n : ℚ)]
  push_cast
  rfl

theorem pow_quotient (k : Nat) : (2 : ℚ) ^ k = pow2 (k + 1074) / pow2 1074 := by
  rw [pow2_add, Nat.cast_mul, mul_div_cancel_right₀ _ (pow2_cast_ne_zero _), pow2_cast]

/-- The threshold of R102, in rationals and in units. -/
theorem threshold_le_iff (n : Nat) {d : Nat} (hd : 0 < d) :
    (2 : ℚ) ^ 1024 - 2 ^ 970 ≤ (n : ℚ) / d ↔ pow2 2098 * d ≤ n * pow2 1074 + pow2 2044 * d := by
  have hd' : (0 : ℚ) < d := Nat.cast_pos.mpr hd
  rw [pow_quotient, pow_quotient, ← sub_div, div_le_div_iff₀ (pow2_cast_pos _) hd', sub_mul,
    sub_le_iff_le_add]
  exact_mod_cast Iff.rfl

theorem rnd_eq_infOf_iff (s : Bool) (n : Nat) {d : Nat} (hd : 0 < d) :
    rnd s n d = infOf s ↔ pow2 2098 ≤ rndUnits n d := by
  refine ⟨fun h => ?_, fun h => by rw [rnd_eq, ofMagUnits_big h]⟩
  by_contra hlt
  have hfin := (magUnits_rnd s n hd (by omega)).1
  rw [h] at hfin
  have hinf := not_isInf_of_isFinite hfin
  rw [isInf_infOf] at hinf
  cases hinf

/-- Settles O32: in units of 2^-1074 the rounding is `nearestEven` in the binade of the number. -/
theorem roundingIsToNearestEven : Obligations.RoundingIsToNearestEven := by
  intro s n d _ hd
  refine ⟨signBit_rnd s n d, ?_, fun hlt => ?_⟩
  · rw [rnd_eq_infOf_iff s n hd, pow2_le_rndUnits_iff n hd, threshold_le_iff n hd]
  have hfits : rndUnits n d < pow2 2098 := by
    rw [← not_le, pow2_le_rndUnits_iff n hd, ← threshold_le_iff n hd]
    exact not_le.mpr hlt
  obtain ⟨hfin, hmag⟩ := magUnits_rnd s n hd hfits
  refine ⟨hfin, fun y _ => ?_⟩
  obtain ⟨hle, htie⟩ := rndUnits_nearest n hd y
  have hpos : (0 : ℚ) < pow2 1074 * d := mul_pos (pow2_cast_pos 1074) (Nat.cast_pos.mpr hd)
  rw [abs_magVal_sub_div _ n hd, abs_magVal_sub_div y n hd, hmag, div_le_div_iff_of_pos_right hpos,
    div_left_inj' hpos.ne', Int.cast_le, Int.cast_inj]
  refine ⟨hle, fun heq hne => fracField_even_of_rndSig hd hmag (htie heq fun h => hne ?_)⟩
  rw [magVal, magVal, h, hmag]

/-! ### Finite data and their units (R100) -/

theorem not_isNaN_of_isInf {x : F64} (h : isInf x = true) : isNaN x = false := by
  rw [eq_infOf h, isNaN_infOf]

theorem isNaN_or_isInf_or_isFinite (x : F64) :
    isNaN x = true ∨ isInf x = true ∨ isFinite x = true := by
  rw [isNaN_iff, isInf_iff, isFinite_iff]
  have := expField_lt x
  omega

theorem eq_of_isInf {x y : F64} (hx : isInf x = true) (hy : isInf y = true)
    (hs : signBit x = signBit y) : x = y := by
  rw [eq_infOf hx, eq_infOf hy, hs]

theorem eq_of_isZero {x y : F64} (hx : isZero x = true) (hy : isZero y = true)
    (hs : signBit x = signBit y) : x = y := by
  rw [eq_zeroOf hx, eq_zeroOf hy, hs]

@[simp] theorem natAbs_units (x : F64) : (units x).natAbs = magUnits x := by
  unfold units
  split <;> simp

/-- The sign of a nonzero datum is the sign of its value. -/
theorem signBit_eq_units_neg {x : F64} (hz : isZero x = false) :
    signBit x = decide (units x < 0) := by
  have hmag := isZero_eq_false_iff.mp hz
  unfold units
  cases signBit x
  · simp
  · simp only [if_true, true_eq_decide_iff]
    omega

/-- Nonzero finite data are told apart by their values. -/
theorem eq_of_units_eq {x y : F64} (hx : isFinite x = true) (hy : isFinite y = true)
    (hz : isZero y = false) (h : units x = units y) : x = y := by
  have hzx : isZero x = false := by
    rwa [← Bool.not_eq_true, ← units_eq_zero_iff, h, units_eq_zero_iff, Bool.not_eq_true]
  rw [← ofMagUnits_magUnits hx, ← ofMagUnits_magUnits hy, signBit_eq_units_neg hzx,
    signBit_eq_units_neg hz, ← natAbs_units x, ← natAbs_units y, h]

theorem val_lt_val_iff {x y : F64} : val x < val y ↔ units x < units y := by
  rw [val, val, div_lt_div_iff_of_pos_right (pow2_cast_pos 1074), Int.cast_lt]

theorem val_eq_val_iff {x y : F64} : val x = val y ↔ units x = units y := by
  rw [val, val, div_left_inj' (pow2_cast_ne_zero 1074), Int.cast_inj]

theorem val_add_val (x y : F64) : val x + val y = ((units x + units y : ℤ) : ℚ) / pow2 1074 := by
  rw [val, val, Int.cast_add, add_div]

theorem val_mul_val (x y : F64) : val x * val y = ((units x * units y : ℤ) : ℚ) / pow2 2148 := by
  rw [val, val, Int.cast_mul, div_mul_div_comm, show 2148 = 1074 + 1074 from rfl, pow2_add,
    Nat.cast_mul]

/-- The rounding of a rational written as any fraction (R102). -/
theorem rnd_num_den (s : Bool) {q : ℚ} {a : ℤ} {p : Nat} (hp : 0 < p) (h : q = (a : ℚ) / p) :
    rnd s q.num.natAbs q.den = rnd s a.natAbs p := by
  refine rnd_congr s q.den_pos hp ?_
  have hp' : (p : ℚ) ≠ 0 := by exact_mod_cast hp.ne'
  have hden : (q.den : ℚ) ≠ 0 := by exact_mod_cast q.den_nz
  rw [← Rat.num_div_den q, div_eq_div_iff hden hp'] at h
  have hint : q.num * p = a * q.den := by exact_mod_cast h
  simpa [Int.natAbs_mul] using congrArg Int.natAbs hint

/-! ### Addition and subtraction (R103, R104) -/

theorem fadd_of_isNaN {x y : F64} (nan : F64) (h : isNaN x = true ∨ isNaN y = true) :
    fadd nan x y = nan :=
  h.elim (fadd_of_isNaN_left nan y) (fadd_of_isNaN_right nan x)

theorem fadd_of_isInf_isInf {x y : F64} (nan : F64) (hx : isInf x = true) (hy : isInf y = true) :
    fadd nan x y = if signBit x = signBit y then x else nan := by
  simp [fadd, not_isNaN_of_isInf hx, not_isNaN_of_isInf hy, hx, hy]

theorem fadd_of_isInf_isFinite {x y : F64} (nan : F64) (hx : isInf x = true)
    (hy : isFinite y = true) : fadd nan x y = x := by
  simp [fadd, not_isNaN_of_isInf hx, not_isNaN_of_isFinite hy, hx, not_isInf_of_isFinite hy]

theorem fadd_of_isFinite_isInf {x y : F64} (nan : F64) (hx : isFinite x = true)
    (hy : isInf y = true) : fadd nan x y = y := by
  simp [fadd, not_isNaN_of_isInf hy, not_isNaN_of_isFinite hx, hy, not_isInf_of_isFinite hx]

theorem fadd_of_isZero_isZero {x y : F64} (nan : F64) (hx : isZero x = true)
    (hy : isZero y = true) : fadd nan x y = if signBit x = signBit y then x else zeroOf false := by
  simp [fadd_finite nan (isFinite_of_isZero hx) (isFinite_of_isZero hy), hx, hy]

/-- The sum of two finite data, not both zero, in exact rationals (R103 (e)). -/
theorem fadd_exact {x y : F64} (nan : F64) (hx : isFinite x = true) (hy : isFinite y = true)
    (hz : isZero x = false ∨ isZero y = false) :
    fadd nan x y =
      if val x + val y = 0 then zeroOf false
      else rnd (decide (val x + val y < 0)) (val x + val y).num.natAbs (val x + val y).den := by
  have hsum := val_add_val x y
  have hzero : val x + val y = 0 ↔ units x + units y = 0 := by
    rw [hsum, div_eq_zero_iff, or_iff_left (pow2_cast_ne_zero 1074), Int.cast_eq_zero]
  have hneg : val x + val y < 0 ↔ units x + units y < 0 := by
    rw [hsum, div_lt_iff₀ (pow2_cast_pos 1074), zero_mul, Int.cast_lt_zero]
  have hnot : ¬ (isZero x && isZero y) = true := by simpa [or_iff_not_imp_left] using hz
  rw [fadd_finite nan hx hy, if_neg hnot, if_congr hzero rfl rfl, decide_eq_decide.mpr hneg,
    rnd_num_den _ (pow2_pos 1074) hsum]

/-- A sum that is a nonzero datum is returned unrounded (R101, R102). -/
theorem fadd_of_units_add {x y z : F64} (nan : F64) (hx : isFinite x = true)
    (hy : isFinite y = true) (hz : isFinite z = true) (hnz : isZero z = false)
    (h : units x + units y = units z) :
    fadd nan x y = z := by
  have hne : units z ≠ 0 := by rwa [Ne, units_eq_zero_iff, Bool.not_eq_true]
  have hnot : ¬ (isZero x && isZero y) = true := by
    rw [Bool.and_eq_true]
    rintro ⟨hx0, hy0⟩
    rw [units_eq_zero_iff.mpr hx0, units_eq_zero_iff.mpr hy0] at h
    exact hne h.symm
  rw [fadd_finite nan hx hy, if_neg hnot, h, if_neg hne, natAbs_units, ← signBit_eq_units_neg hnz,
    rnd_self hz]

/-- Adding a zero of either sign to a number that is not zero changes nothing (R103). -/
theorem fadd_isZero_right {x y : F64} (nan : F64) (hx : isNaN x = false) (hnz : isZero x = false)
    (hy : isZero y = true) : fadd nan x y = x := by
  have hyfin := isFinite_of_isZero hy
  obtain h | hinf | hfin := isNaN_or_isInf_or_isFinite x
  · rw [hx] at h
    cases h
  · exact fadd_of_isInf_isFinite nan hinf hyfin
  · refine fadd_of_units_add nan hfin hyfin hfin hnz ?_
    rw [units_eq_zero_iff.mpr hy, add_zero]

/-- Addition is commutative: where the signs choose between the operands, both are one pattern. -/
theorem fadd_comm (nan x y : F64) : fadd nan x y = fadd nan y x := by
  obtain hx | hx | hx := isNaN_or_isInf_or_isFinite x
  · rw [fadd_of_isNaN_left nan y hx, fadd_of_isNaN_right nan y hx]
  · obtain hy | hy | hy := isNaN_or_isInf_or_isFinite y
    · rw [fadd_of_isNaN_right nan x hy, fadd_of_isNaN_left nan x hy]
    · rw [fadd_of_isInf_isInf nan hx hy, fadd_of_isInf_isInf nan hy hx]
      by_cases hs : signBit x = signBit y
      · rw [if_pos hs, if_pos hs.symm, eq_of_isInf hx hy hs]
      · rw [if_neg hs, if_neg (Ne.symm hs)]
    · rw [fadd_of_isInf_isFinite nan hx hy, fadd_of_isFinite_isInf nan hy hx]
  · obtain hy | hy | hy := isNaN_or_isInf_or_isFinite y
    · rw [fadd_of_isNaN_right nan x hy, fadd_of_isNaN_left nan x hy]
    · rw [fadd_of_isFinite_isInf nan hx hy, fadd_of_isInf_isFinite nan hy hx]
    · rw [fadd_finite nan hx hy, fadd_finite nan hy hx, Int.add_comm (units y)]
      by_cases hz : isZero x = true ∧ isZero y = true
      · obtain ⟨hzx, hzy⟩ := hz
        by_cases hs : signBit x = signBit y
        · rw [eq_of_isZero hzx hzy hs]
        · simp [hzx, hzy, hs, Ne.symm hs]
      · rw [← Bool.and_eq_true] at hz
        rw [Bool.and_comm (isZero y), if_neg hz, if_neg hz]

/-- Settles O33, case by case. -/
theorem additionFollowsTheCases : Obligations.AdditionFollowsTheCases := fun d x y =>
  ⟨fadd_of_isNaN d, fadd_of_isInf_isInf d, fadd_of_isInf_isFinite d, fadd_of_isFinite_isInf d,
    fadd_of_isZero_isZero d, fadd_exact d,
    fun hx hz => ⟨fadd_isZero_right d hx hz rfl, fadd_isZero_right d hx hz rfl⟩, fadd_comm d x y⟩

theorem fsub_self_of_isFinite {x : F64} (nan : F64) (hx : isFinite x = true) :
    fsub nan x x = zeroOf false := by
  rw [fsub, fadd_finite nan hx (by rwa [isFinite_fneg]), units_fneg, add_neg_cancel, if_pos rfl,
    signBit_fneg, if_neg (Bool.eq_not_self _).mp, ite_self]

theorem fsub_self_of_isInf {x : F64} (nan : F64) (hx : isInf x = true) : fsub nan x x = nan := by
  rw [fsub, fadd_of_isInf_isInf nan hx (by rwa [isInf_fneg]), signBit_fneg,
    if_neg (Bool.eq_not_self _).mp]

/-- Settles O34: `x` and its negation have opposite signs and units. -/
theorem subtractionAddsTheNegation : Obligations.SubtractionAddsTheNegation :=
  ⟨fun _ _ _ => rfl, fun x => ⟨signBit_fneg x, expField_fneg x, fracField_fneg x⟩,
    fun d _ hx => fsub_self_of_isFinite d hx, fun d _ hx => fsub_self_of_isInf d hx⟩

/-! ### Multiplication (R105) -/

theorem fmul_of_isNaN {x y : F64} (nan : F64) (h : isNaN x = true ∨ isNaN y = true) :
    fmul nan x y = nan :=
  h.elim (fmul_of_isNaN_left nan y) (fmul_of_isNaN_right nan x)

theorem fmul_inf_zero {x y : F64} (nan : F64)
    (h : (isInf x = true ∧ isZero y = true) ∨ (isZero x = true ∧ isInf y = true)) :
    fmul nan x y = nan := by
  have hcase : ((isInf x && isZero y) || (isZero x && isInf y)) = true := by simpa using h
  rw [fmul, if_pos hcase, ite_self]

theorem fmul_inf {x y : F64} (nan : F64) (hx : isNaN x = false) (hy : isNaN y = false)
    (hxz : isZero x = false) (hyz : isZero y = false) (h : isInf x = true ∨ isInf y = true) :
    fmul nan x y = infOf (signBit x != signBit y) := by
  have hcase : (isInf x || isInf y) = true := by simpa using h
  simp only [fmul, hx, hy, hxz, hyz, hcase, Bool.or_false, Bool.and_false, Bool.false_and,
    Bool.false_eq_true, if_false, if_true]

theorem fmul_zero {x y : F64} (nan : F64) (hx : isFinite x = true) (hy : isFinite y = true)
    (h : isZero x = true ∨ isZero y = true) :
    fmul nan x y = zeroOf (signBit x != signBit y) := by
  rw [fmul_finite nan hx hy, if_pos (by simpa using h)]

/-- The product of two finite data that are not zero, in exact rationals (R105 (e)). -/
theorem fmul_exact {x y : F64} (nan : F64) (hx : isFinite x = true) (hy : isFinite y = true)
    (hxz : isZero x = false) (hyz : isZero y = false) :
    fmul nan x y =
      rnd (signBit x != signBit y) (val x * val y).num.natAbs (val x * val y).den := by
  rw [fmul_finite nan hx hy, if_neg (by simp [hxz, hyz]),
    rnd_num_den _ (pow2_pos 2148) (val_mul_val x y), Int.natAbs_mul, natAbs_units, natAbs_units]

/-- Settles O35, case by case. -/
theorem multiplicationFollowsTheCases : Obligations.MultiplicationFollowsTheCases := fun d _ _ =>
  ⟨fmul_of_isNaN d, fmul_inf_zero d, fmul_inf d, fmul_zero d, fmul_exact d⟩

theorem units_mul_units (x y : F64) :
    units x * units y = if (signBit x != signBit y) = true then -(magUnits x * magUnits y : ℤ)
      else magUnits x * magUnits y := by
  unfold units
  cases signBit x <;> cases signBit y <;> simp

/-- A sign can be read off a signed positive number. -/
theorem sign_eq_of_ite_neg {b s : Bool} {m : ℤ} (hm : 0 < m)
    (h : (if b = true then -m else m) = if s = true then -m else m) : b = s := by
  cases b <;> cases s <;> simp at h ⊢ <;> omega

theorem val_mul_val_eq_iff {x y z : F64} :
    val x * val y = val z ↔ units x * units y = units z * pow2 1074 := by
  have hne := pow2_cast_ne_zero 1074
  rw [val, val, val, div_mul_div_comm, div_eq_div_iff (mul_ne_zero hne hne) hne, ← mul_assoc,
    mul_left_inj' hne]
  exact_mod_cast Iff.rfl

/-- The exact product of two data is a third one if its sign and its magnitude are. -/
theorem units_mul_eq_of_magUnits {x y z : F64} (hs : signBit z = (signBit x != signBit y))
    (h : magUnits x * magUnits y = magUnits z * pow2 1074) :
    units x * units y = units z * pow2 1074 := by
  rw [units_mul_units, units, hs, ← Nat.cast_mul, h, ite_mul, Nat.cast_mul, neg_mul]

/-- A product that is a nonzero datum is returned unrounded (R101, R102). -/
theorem fmul_of_units_mul {x y z : F64} (nan : F64) (hx : isFinite x = true)
    (hy : isFinite y = true) (hz : isFinite z = true) (hnz : isZero z = false)
    (h : units x * units y = units z * pow2 1074) : fmul nan x y = z := by
  have hne : units z ≠ 0 := by rwa [Ne, units_eq_zero_iff, Bool.not_eq_true]
  have hprod : units x * units y ≠ 0 := h ▸ mul_ne_zero hne (by exact_mod_cast (pow2_pos 1074).ne')
  have hxz : isZero x = false := by
    rw [← Bool.not_eq_true, ← units_eq_zero_iff]
    exact left_ne_zero_of_mul hprod
  have hyz : isZero y = false := by
    rw [← Bool.not_eq_true, ← units_eq_zero_iff]
    exact right_ne_zero_of_mul hprod
  have hmag : magUnits x * magUnits y = magUnits z * pow2 1074 := by
    simpa [Int.natAbs_mul] using congrArg Int.natAbs h
  have hsign : (signBit x != signBit y) = signBit z := by
    refine sign_eq_of_ite_neg (m := (magUnits z * pow2 1074 : ℕ)) ?_ ?_
    · exact_mod_cast Nat.mul_pos (Nat.pos_of_ne_zero (isZero_eq_false_iff.mp hnz)) (pow2_pos 1074)
    · rw [units_mul_units, ← Nat.cast_mul, hmag] at h
      rw [h, units, ite_mul, Nat.cast_mul, neg_mul]
  rw [fmul_finite nan hx hy, if_neg (by simp [hxz, hyz]), hsign,
    rnd_of_magUnits (pow2_pos 2148) (x := z) ?_, ofMagUnits_magUnits hz]
  rw [hmag, Nat.mul_assoc, ← pow2_add]

/-- Settles O37: in units the exact sum and the exact product are those of the datum. -/
theorem representableResultsAreExact : Obligations.RepresentableResultsAreExact := by
  intro d x y z hx hy hz hnz
  refine ⟨fun h => fadd_of_units_add d hx hy hz hnz ?_,
    fun h => fmul_of_units_mul d hx hy hz hnz ?_⟩
  · rw [val_add_val, val, div_left_inj' (pow2_cast_ne_zero 1074)] at h
    exact_mod_cast h
  · rwa [val_mul_val_eq_iff] at h

/-! ### Representable magnitudes (R100, R105) -/

/-- A number below `2^53`, scaled by a power of two, has at most 53 significant bits. -/
theorem pow2_log2_dvd {c e : Nat} (hc : c < pow2 53) :
    pow2 (Nat.log2 (c * pow2 e) - 52) ∣ c * pow2 e := by
  rcases eq_or_ne c 0 with rfl | h0
  · rw [Nat.zero_mul]
    exact dvd_zero _
  have hlog : Nat.log2 (c * pow2 e) < 53 + e := by
    refine log2_lt (Nat.mul_ne_zero h0 (pow2_pos e).ne') ?_
    rw [pow2_add]
    exact Nat.mul_lt_mul_of_pos_right hc (pow2_pos e)
  exact (pow2_dvd_pow2 (by omega)).mul_left c

/-- A significand below `2^53` at an exponent in range is encoded exactly. -/
theorem magUnits_ofMagUnits_mul_pow2 (s : Bool) {c e : Nat} (hc : c < pow2 53)
    (h : c * pow2 e < pow2 2098) : magUnits (ofMagUnits s (c * pow2 e)) = c * pow2 e :=
  magUnits_ofMagUnits h (pow2_log2_dvd hc)

theorem exists_datum (s : Bool) {c e : Nat} (hc : c < pow2 53) (h : c * pow2 e < pow2 2098) :
    ∃ z, isFinite z = true ∧ signBit z = s ∧ magUnits z = c * pow2 e :=
  ⟨_, isFinite_ofMagUnits h, signBit_ofMagUnits s _, magUnits_ofMagUnits_mul_pow2 s hc h⟩

/-- The normal data are those of magnitude `2^-1022` on. -/
theorem isNormal_of_le_magUnits {x : F64} (hx : isFinite x = true) (h : pow2 52 ≤ magUnits x) :
    isNormal x = true := by
  rw [isFinite_iff] at hx
  rw [isNormal_iff]
  refine ⟨?_, hx⟩
  by_contra he
  rw [magUnits, if_pos (by omega)] at h
  exact absurd (fracField_lt x) (not_lt.mpr h)

theorem not_isZero_of_isNormal {x : F64} (h : isNormal x = true) : isZero x = false := by
  rw [isNormal_iff] at h
  rw [← Bool.not_eq_true, isZero_iff]
  omega

theorem abs_units (x : F64) : |units x| = magUnits x := by
  rw [Int.abs_eq_natAbs, natAbs_units]

theorem abs_val (x : F64) : |val x| = magUnits x / pow2 1074 := by
  rw [val, abs_div, ← Int.cast_abs, abs_units, abs_of_pos (pow2_cast_pos 1074), Int.cast_natCast]

theorem abs_val_mul_val (x y : F64) :
    |val x * val y| = ((magUnits x * magUnits y : ℕ) : ℚ) / pow2 2148 := by
  rw [abs_mul, abs_val, abs_val, div_mul_div_comm, show 2148 = 1074 + 1074 from rfl, pow2_add,
    Nat.cast_mul, Nat.cast_mul]

/-- The exact product with a power of two keeps the significand; in the normal range it stands at an
exponent of the format. -/
theorem magUnits_mul_pow2 {x : F64} {a : Nat} (h : pow2 1126 ≤ magUnits x * pow2 a) :
    magUnits x * pow2 a = significand x * pow2 (expField x - 1 + a - 1074) * pow2 1074 := by
  have hmul : magUnits x * pow2 a = significand x * pow2 (expField x - 1 + a) := by
    rw [magUnits_eq_significand_mul, Nat.mul_assoc, ← pow2_add]
  have hexp : 1074 ≤ expField x - 1 + a := by
    by_contra hlt
    have hbound : magUnits x * pow2 a < pow2 1126 := by
      calc magUnits x * pow2 a < pow2 53 * pow2 (expField x - 1 + a) :=
            hmul ▸ Nat.mul_lt_mul_of_pos_right (significand_lt x) (pow2_pos _)
        _ = pow2 (53 + (expField x - 1 + a)) := (pow2_add _ _).symm
        _ ≤ pow2 1126 := pow2_le (by omega)
    omega
  rw [hmul, Nat.mul_assoc, ← pow2_add, Nat.sub_add_cancel hexp]

/-- Scaling by a power of two is exact in the normal range (R105). -/
theorem fmul_pow2 {x k : F64} {a : Nat} (nan : F64) (hx : isFinite x = true)
    (hk : isFinite k = true) (ha : magUnits k = pow2 a) (hlo : pow2 1126 ≤ magUnits x * pow2 a)
    (hhi : magUnits x * pow2 a < pow2 3172) :
    isNormal (fmul nan x k) = true ∧ val (fmul nan x k) = val x * val k := by
  have hsplit := magUnits_mul_pow2 hlo
  generalize expField x - 1 + a - 1074 = e at hsplit
  have hfits : significand x * pow2 e < pow2 2098 := by
    rw [hsplit, show 3172 = 2098 + 1074 from rfl, pow2_add] at hhi
    exact lt_of_mul_lt_mul_right hhi (Nat.zero_le _)
  have hlarge : pow2 52 ≤ significand x * pow2 e := by
    rw [hsplit, show 1126 = 52 + 1074 from rfl, pow2_add] at hlo
    exact le_of_mul_le_mul_right hlo (pow2_pos _)
  obtain ⟨z, hzfin, hzsign, hzmag⟩ :=
    exists_datum (signBit x != signBit k) (significand_lt x) hfits
  have hznormal := isNormal_of_le_magUnits hzfin (hzmag ▸ hlarge)
  have hexact : units x * units k = units z * pow2 1074 :=
    units_mul_eq_of_magUnits hzsign (by rw [ha, hsplit, hzmag])
  rw [fmul_of_units_mul nan hx hk hzfin (not_isZero_of_isNormal hznormal) hexact]
  exact ⟨hznormal, by rwa [eq_comm, val_mul_val_eq_iff]⟩

/-- Each wired scaling constant is a power of two (R26). -/
theorem scaling_constant_magUnits {k : F64} (h : k = kTwo ∨ k = k256 ∨ k = kScale) :
    isFinite k = true ∧ ∃ a, magUnits k = pow2 a := by
  obtain rfl | rfl | rfl := h
  · exact ⟨by decide, 1075, by decide⟩
  · exact ⟨by decide, 1082, by decide⟩
  · exact ⟨by decide, 1011, by decide⟩

/-- Settles O36: each of the three constants is a power of two. -/
theorem powerOfTwoScalingIsExact : Obligations.PowerOfTwoScalingIsExact := by
  intro d x k hk hx hlo hhi
  obtain ⟨hkfin, a, ha⟩ := scaling_constant_magUnits hk
  rw [abs_val_mul_val, ha] at hlo hhi
  refine fmul_pow2 d hx hkfin ha ?_ ?_
  · rw [div_le_div_iff₀ (by positivity) (pow2_cast_pos _), one_mul, ← pow2_cast,
      show 2148 = 1126 + 1022 from rfl, pow2_add, Nat.cast_mul,
      mul_le_mul_iff_left₀ (pow2_cast_pos 1022)] at hlo
    exact_mod_cast hlo
  · rw [div_lt_iff₀ (pow2_cast_pos _), ← pow2_cast, ← Nat.cast_mul, ← pow2_add] at hhi
    exact_mod_cast hhi

/-! ### Comparisons (R106) -/

theorem isFinite_infOf (s : Bool) : isFinite (infOf s) = false := by cases s <;> rfl

theorem feq_of_isNaN {x y : F64} (h : isNaN x = true ∨ isNaN y = true) : feq x y = false :=
  if_pos (by simpa using h)

theorem flt_of_isNaN {x y : F64} (h : isNaN x = true ∨ isNaN y = true) : flt x y = false :=
  h.elim (flt_of_isNaN_left y) (flt_of_isNaN_right x)

theorem feq_iff {x y : F64} (hx : isNaN x = false) (hy : isNaN y = false) :
    feq x y = true ↔ (isZero x = true ∧ isZero y = true) ∨ x = y := by
  simp only [feq, hx, hy, Bool.or_false, Bool.false_eq_true, if_false]
  split
  next h => exact iff_of_true rfl (.inl (by simpa using h))
  next h => rw [beq_iff_eq, or_iff_right (by simpa using h)]

/-- On finite data equality is equality of the values. -/
theorem feq_finite_iff {x y : F64} (hx : isFinite x = true) (hy : isFinite y = true) :
    feq x y = true ↔ val x = val y := by
  rw [feq_iff (not_isNaN_of_isFinite hx) (not_isNaN_of_isFinite hy), val_eq_val_iff]
  constructor
  · rintro (⟨hxz, hyz⟩ | rfl)
    · rw [units_eq_zero_iff.mpr hxz, units_eq_zero_iff.mpr hyz]
    · rfl
  · intro h
    cases hyz : isZero y with
    | false => exact .inr (eq_of_units_eq hx hy hyz h)
    | true => exact .inl ⟨units_eq_zero_iff.mp (h.trans (units_eq_zero_iff.mpr hyz)), rfl⟩

/-- On finite data the order is that of the values. -/
theorem flt_finite_iff {x y : F64} (hx : isFinite x = true) (hy : isFinite y = true) :
    flt x y = true ↔ val x < val y := by
  simp [flt, not_isNaN_of_isFinite hx, not_isNaN_of_isFinite hy, not_isInf_of_isFinite hx,
    not_isInf_of_isFinite hy, val_lt_val_iff]

theorem flt_infOf_left {y : F64} (s : Bool) (hy : isFinite y = true) : flt (infOf s) y = s := by
  simp [flt, not_isNaN_of_isFinite hy, not_isInf_of_isFinite hy]

theorem flt_infOf_right {x : F64} (s : Bool) (hx : isFinite x = true) : flt x (infOf s) = !s := by
  simp [flt, not_isNaN_of_isFinite hx, not_isInf_of_isFinite hx]

theorem feq_infOf_right {x : F64} (s : Bool) (hx : isFinite x = true) :
    feq x (infOf s) = false := by
  rw [← Bool.not_eq_true, feq_iff (not_isNaN_of_isFinite hx) (isNaN_infOf s)]
  rintro (⟨-, h⟩ | rfl)
  · have := isFinite_of_isZero h
    rw [isFinite_infOf] at this
    cases this
  · rw [isFinite_infOf] at hx
    cases hx

/-- Settles O38: NaNs, finite data, and the infinities against finite data and each other. -/
theorem comparisonsOrderTheExtendedReals : Obligations.ComparisonsOrderTheExtendedReals :=
  fun x y => ⟨fun h => ⟨feq_of_isNaN h, flt_of_isNaN h⟩, feq_iff,
    fun hx hy => ⟨feq_finite_iff hx hy, flt_finite_iff hx hy⟩,
    fun hx => ⟨flt_infOf_left true hx, flt_infOf_right false hx, flt_infOf_right true hx,
      flt_infOf_left false hx, feq_infOf_right true hx, feq_infOf_right false hx⟩,
    by decide, by decide, by decide, by decide, by decide⟩

/-! ### The floor (R107) -/

theorem floor_val (x : F64) : ⌊val x⌋ = units x / (pow2 1074 : ℤ) :=
  Rat.floor_intCast_div_natCast _ _

theorem val_neg_iff {x : F64} : val x < 0 ↔ units x < 0 := by
  rw [val, div_lt_iff₀ (pow2_cast_pos 1074), zero_mul, Int.cast_lt_zero]

theorem val_eq_of_units {x : F64} {z : ℤ} (h : units x = z * pow2 1074) : val x = z := by
  rw [val, h, Int.cast_mul, Int.cast_natCast, mul_div_cancel_right₀ _ (pow2_cast_ne_zero 1074)]

theorem ffloor_of_isInf_or_isZero {x : F64} (nan : F64) (h : isInf x = true ∨ isZero x = true) :
    ffloor nan x = x := by
  have hnan : isNaN x = false := h.elim not_isNaN_of_isInf
    fun hz => not_isNaN_of_isFinite (isFinite_of_isZero hz)
  rw [ffloor, if_neg (by simp [hnan]), if_pos (by simpa using h)]

/-- The floor of a nonzero finite datum, its magnitude the integer's (R107). -/
theorem ffloor_finite {x : F64} (nan : F64) (hx : isFinite x = true) (hz : isZero x = false) :
    ffloor nan x =
      ofMagUnits (signBit x) ((units x / (pow2 1074 : ℤ)).natAbs * pow2 1074) := by
  rw [ffloor, if_neg (by simp [not_isNaN_of_isFinite hx]),
    if_neg (by simp [not_isInf_of_isFinite hx, hz]), signBit_eq_units_neg hz]

theorem cast_dvd_units {x : F64} (h : pow2 1074 ∣ magUnits x) : (pow2 1074 : ℤ) ∣ units x := by
  rwa [Int.natCast_dvd, natAbs_units]

/-- An integer is its own floor. -/
theorem ffloor_of_dvd {x : F64} (nan : F64) (hx : isFinite x = true) (h : pow2 1074 ∣ magUnits x) :
    ffloor nan x = x := by
  cases hz : isZero x with
  | true => exact ffloor_of_isInf_or_isZero nan (.inr hz)
  | false =>
    rw [ffloor_finite nan hx hz, Int.natAbs_ediv_of_dvd (cast_dvd_units h), natAbs_units,
      Int.natAbs_natCast, Nat.div_mul_cancel h, ofMagUnits_magUnits hx]

/-- The integers of the format: below `2^52` in magnitude the floor fits a significand. -/
theorem natAbs_floor_lt {x : F64} (h : magUnits x < pow2 1126) :
    (units x / (pow2 1074 : ℤ)).natAbs < pow2 53 := by
  have hpos : (0 : ℤ) < pow2 1074 := by exact_mod_cast pow2_pos 1074
  have hsplit : (pow2 1126 : ℤ) = pow2 52 * pow2 1074 := by
    rw [show 1126 = 52 + 1074 from rfl, pow2_add, Nat.cast_mul]
  obtain ⟨hlo, hhi⟩ : -(pow2 1126 : ℤ) < units x ∧ units x < pow2 1126 := by
    rw [← abs_lt, abs_units]
    exact_mod_cast h
  rw [hsplit] at hlo hhi
  have hge : -(pow2 52 : ℤ) ≤ units x / pow2 1074 :=
    (Int.le_ediv_iff_mul_le hpos).mpr (by linarith)
  have hle : units x / (pow2 1074 : ℤ) < pow2 52 := (Int.ediv_lt_iff_lt_mul hpos).mpr hhi
  rw [show pow2 52 = 2 ^ 52 from rfl] at hge hle
  rw [show pow2 53 = 2 ^ 53 from rfl]
  omega

/-- Rounding down keeps the sign, but that the integer may be zero. -/
theorem floor_eq_sign_mul {x : F64} (hz : isZero x = false) :
    units x / (pow2 1074 : ℤ) =
      if signBit x then -((units x / (pow2 1074 : ℤ)).natAbs : ℤ)
      else (units x / (pow2 1074 : ℤ)).natAbs := by
  have hpos : (0 : ℤ) < pow2 1074 := by exact_mod_cast pow2_pos 1074
  rw [signBit_eq_units_neg hz]
  rcases lt_or_ge (units x) 0 with h | h
  · have := Int.ediv_neg_of_neg_of_pos h hpos
    rw [if_pos (decide_eq_true h)]
    omega
  · have := Int.ediv_nonneg h hpos.le
    rw [if_neg (by simpa using h)]
    omega

/-- The floor of a finite datum is finite, and exactly the greatest integer not above it (R107). -/
theorem ffloor_exact {x : F64} (nan : F64) (hx : isFinite x = true) :
    isFinite (ffloor nan x) = true ∧ val (ffloor nan x) = ((⌊val x⌋ : ℤ) : ℚ) := by
  rw [floor_val]
  by_cases hint : pow2 1074 ∣ magUnits x
  · rw [ffloor_of_dvd nan hx hint]
    exact ⟨hx, val_eq_of_units (Int.ediv_mul_cancel (cast_dvd_units hint)).symm⟩
  have hz : isZero x = false := by
    rw [isZero_eq_false_iff]
    exact fun h => hint (h ▸ dvd_zero _)
  have hc := natAbs_floor_lt (not_le.mp fun h => hint (pow2_dvd_magUnits (k := 1074) h))
  have hfloor := floor_eq_sign_mul hz
  rw [ffloor_finite nan hx hz]
  generalize units x / (pow2 1074 : ℤ) = z at *
  have hfits : z.natAbs * pow2 1074 < pow2 2098 := by
    calc z.natAbs * pow2 1074 < pow2 53 * pow2 1074 := Nat.mul_lt_mul_of_pos_right hc (pow2_pos _)
      _ = pow2 1127 := (pow2_add 53 1074).symm
      _ ≤ pow2 2098 := pow2_le (by omega)
  refine ⟨isFinite_ofMagUnits hfits, val_eq_of_units ?_⟩
  rw [units, signBit_ofMagUnits, magUnits_ofMagUnits_mul_pow2 _ hc hfits]
  conv_rhs => rw [hfloor]
  rw [ite_mul, Nat.cast_mul, neg_mul]

/-- A floor by its sign and its integer. -/
theorem ffloor_eq_of_floor {x : F64} {z : ℤ} (nan : F64) (hx : isFinite x = true) (hv : val x ≠ 0)
    (h : ⌊val x⌋ = z) : ffloor nan x = ofMagUnits (decide (val x < 0)) (z.natAbs * pow2 1074) := by
  have hz : isZero x = false := by
    rw [← Bool.not_eq_true]
    exact fun hz => hv (val_of_isZero hz)
  rw [ffloor_finite nan hx hz, ← floor_val, h, signBit_eq_units_neg hz,
    decide_eq_decide.mpr val_neg_iff]

theorem ffloor_of_pow_le {x : F64} (nan : F64) (hx : isFinite x = true)
    (h : (2 : ℚ) ^ 52 ≤ |val x|) : ffloor nan x = x := by
  refine ffloor_of_dvd nan hx (pow2_dvd_magUnits ?_)
  rw [abs_val, le_div_iff₀ (pow2_cast_pos 1074), ← pow2_cast, ← Nat.cast_mul, ← pow2_add] at h
  exact_mod_cast h

/-- Settles O39: the floor is exact, and between -1 and 1 it is one of two data. -/
theorem floorIsTheGreatestInteger : Obligations.FloorIsTheGreatestInteger := by
  refine fun d x => ⟨ffloor_of_isNaN d, ffloor_of_isInf_or_isZero d, ffloor_exact d,
    fun hx h0 h1 => ?_, fun hx h1 h0 => ?_, ffloor_of_pow_le d⟩
  · rw [ffloor_eq_of_floor d hx h0.ne' (Int.floor_eq_zero_iff.mpr ⟨h0.le, h1⟩),
      decide_eq_false h0.le.not_gt]
    rfl
  · have hfloor : ⌊val x⌋ = -1 :=
      Int.floor_eq_iff.mpr ⟨by push_cast; exact h1.le, by simpa using h0⟩
    have hone : Int.natAbs (-1) * pow2 1074 = magUnits 0xBFF0000000000000 := by decide
    rw [ffloor_eq_of_floor d hx h0.ne hfloor, decide_eq_true h0, hone]
    exact ofMagUnits_magUnits rfl

/-! ### Conversion of an integer (R111) -/

theorem cvt63_zero (rm : CvtMode) : cvt63 rm 0 = 0x0000000000000000 := by
  cases rm <;> rfl

theorem log2_add_one_eq {m L : Nat} (hm : m ≠ 0) (hlo : 2 ^ (L - 1) ≤ m) (hhi : m < 2 ^ L)
    (hL : 1 ≤ L) : Nat.log2 m + 1 = L := by
  have : Nat.log2 m = L - 1 :=
    (Nat.log2_eq_iff hm).mpr ⟨hlo, by rwa [Nat.sub_add_cancel hL]⟩
  omega

theorem log2_mul_pow2 {m : Nat} (hm : m ≠ 0) (k : Nat) :
    Nat.log2 (m * pow2 k) = Nat.log2 m + k := by
  obtain ⟨hlo, hhi⟩ := log2_bounds hm
  refine (Nat.log2_eq_iff (Nat.mul_ne_zero hm (pow2_pos k).ne')).mpr ?_
  rw [← pow2_eq, ← pow2_eq, pow2_add, Nat.add_right_comm, pow2_add]
  exact ⟨Nat.mul_le_mul_right _ hlo, Nat.mul_lt_mul_of_pos_right hhi (pow2_pos k)⟩

/-- Rounding differs from cutting off exactly above half a unit, or at half a unit with an odd kept
part. -/
theorem nearestEven_ne_div_iff (n k : Nat) :
    nearestEven n (2 * k) ≠ n / (2 * k) ↔
      k < n % (2 * k) ∨ (n % (2 * k) = k ∧ n / (2 * k) % 2 = 1) := by
  unfold nearestEven
  split_ifs <;> omega

/-- Finite data of one sign are told apart by their magnitudes. -/
theorem eq_iff_magUnits_eq {x y : F64} (hx : isFinite x = true) (hy : isFinite y = true)
    (hs : signBit x = signBit y) : x = y ↔ magUnits x = magUnits y := by
  refine ⟨fun h => h ▸ rfl, fun h => ?_⟩
  rw [← ofMagUnits_magUnits hx, ← ofMagUnits_magUnits hy, hs, h]

/-- The leading 53 bits of a number of bit length `L`, with zeros after a shorter one (R111). -/
def leading53 (m L : Nat) : Nat := if L ≤ 53 then m * 2 ^ (53 - L) else m / 2 ^ (L - 53)

theorem leading53_short {m L : Nat} (h : L ≤ 53) : leading53 m L = m * 2 ^ (53 - L) := if_pos h

theorem leading53_long {m L : Nat} (h : 53 < L) : leading53 m L = m / 2 ^ (L - 53) :=
  if_neg (not_le.mpr h)

section
variable {m L : Nat} (hm : m ≠ 0) (h63 : m < 2 ^ 63) (hL : Nat.log2 m + 1 = L)

include h63 in
theorem rnd_one_fits :
    isFinite (rnd false m 1) = true ∧ magUnits (rnd false m 1) = rndUnits m 1 := by
  refine magUnits_rnd false m one_pos ?_
  rw [← not_le, pow2_le_rndUnits_iff m one_pos, not_le, Nat.mul_one, Nat.mul_one]
  calc m * pow2 1074 + pow2 2044 < 2 ^ 63 * pow2 1074 + pow2 2044 :=
        Nat.add_lt_add_right (Nat.mul_lt_mul_of_pos_right h63 (pow2_pos _)) _
    _ < pow2 2098 := by decide

include hm hL

theorem leading53_bounds : 2 ^ 52 ≤ leading53 m L ∧ leading53 m L < 2 ^ 53 := by
  subst hL
  have hhi := cvt63_significand_lt hm
  obtain ⟨hlo, -⟩ := log2_bounds hm
  simp only [pow2_eq] at hhi hlo
  refine ⟨?_, hhi⟩
  rcases Nat.lt_or_ge 53 (Nat.log2 m + 1) with h | h
  · rw [leading53_long h, Nat.le_div_iff_mul_le (Nat.two_pow_pos _), ← pow_add]
    rwa [show 52 + (Nat.log2 m + 1 - 53) = Nat.log2 m by omega]
  · rw [leading53_short h]
    calc 2 ^ 52 = 2 ^ Nat.log2 m * 2 ^ (53 - (Nat.log2 m + 1)) := by
          rw [← pow_add]; congr 1; omega
      _ ≤ m * 2 ^ (53 - (Nat.log2 m + 1)) := Nat.mul_le_mul_right _ hlo

theorem cvt63_rtz_eq : cvt63 .rtz m = mkF64 false (1022 + L) (leading53 m L - 2 ^ 52) := by
  subst hL
  simp only [cvt63, if_neg hm, pow2_eq]
  rfl

include h63

/-- The fields under RTZ (R111). -/
theorem cvt63_rtz_fields : signBit (cvt63 .rtz m) = false ∧ expField (cvt63 .rtz m) = 1022 + L ∧
    fracField (cvt63 .rtz m) = leading53 m L - 2 ^ 52 := by
  have hlog : Nat.log2 m < 63 := (Nat.log2_lt hm).mpr h63
  obtain ⟨hlo, hhi⟩ := leading53_bounds hm hL
  have he : 1022 + L < 2048 := by omega
  have hf : leading53 m L - 2 ^ 52 < 2 ^ 52 := by omega
  rw [cvt63_rtz_eq hm hL]
  exact ⟨signBit_mkF64 _ he hf, expField_mkF64 _ he hf, fracField_mkF64 _ he hf⟩

theorem magUnits_cvt63_rtz : magUnits (cvt63 .rtz m) = leading53 m L * pow2 (L + 1021) := by
  obtain ⟨-, he, hf⟩ := cvt63_rtz_fields hm h63 hL
  rw [magUnits_of_expField_pos (by omega), he, hf, Nat.add_sub_cancel' (leading53_bounds hm hL).1,
    show 1022 + L - 1 = L + 1021 by omega]

/-- A number of at most 53 bits is kept whole. -/
theorem magUnits_cvt63_rtz_short (h : L ≤ 53) : magUnits (cvt63 .rtz m) = m * pow2 1074 := by
  rw [magUnits_cvt63_rtz hm h63 hL, leading53_short h, ← pow2_eq, Nat.mul_assoc, ← pow2_add,
    show 53 - L + (L + 1021) = 1074 by omega]

/-- A longer number is cut off below its leading 53 bits. -/
theorem magUnits_cvt63_rtz_long (h : 53 < L) :
    magUnits (cvt63 .rtz m) = m / 2 ^ (L - 53) * 2 ^ (L - 53) * pow2 1074 := by
  rw [magUnits_cvt63_rtz hm h63 hL, leading53_long h, Nat.mul_assoc, ← pow2_eq (L - 53), ← pow2_add,
    show L - 53 + 1074 = L + 1021 by omega]

theorem val_cvt63_rtz {k : Nat} (h : magUnits (cvt63 .rtz m) = k * pow2 1074) :
    val (cvt63 .rtz m) = k := by
  refine val_eq_of_units (z := k) ?_
  rw [units_of_signBit_false (cvt63_rtz_fields hm h63 hL).1, h, Nat.cast_mul]

/-- A number of at most 53 bits is not rounded. -/
theorem rnd_one_short (h : L ≤ 53) : rnd false m 1 = cvt63 .rtz m := by
  have hfin := isFinite_cvt63_rtz h63
  have hsign := (cvt63_rtz_fields hm h63 hL).1
  rw [rnd_of_magUnits (x := cvt63 .rtz m) one_pos ?_, ← hsign, ofMagUnits_magUnits hfin]
  rw [magUnits_cvt63_rtz_short hm h63 hL h, Nat.mul_one]

/-- A longer number is rounded at its leading 53 bits. -/
theorem magUnits_rnd_one_long (h : 53 < L) : magUnits (rnd false m 1) =
    nearestEven m (2 ^ (L - 53)) * 2 ^ (L - 53) * pow2 1074 := by
  have hexp : rndExp m 1 = L - 53 + 1074 := by
    rw [rndExp_eq, Nat.div_one, log2_mul_pow2 hm]
    omega
  rw [(rnd_one_fits h63).2, rndUnits_eq, rndSig_eq, hexp, Nat.one_mul, pow2_add,
    nearestEven_scale _ _ (pow2_pos 1074), pow2_eq (L - 53), Nat.mul_assoc]

/-- Exactly where the two readings of `CVT_RM` differ (R111). -/
theorem cvt63_rne_ne_rtz_iff : rnd false m 1 ≠ cvt63 .rtz m ↔ 53 < L ∧
    (2 ^ (L - 54) < m % 2 ^ (L - 53) ∨
      (m % 2 ^ (L - 53) = 2 ^ (L - 54) ∧ m / 2 ^ (L - 53) % 2 = 1)) := by
  rcases Nat.lt_or_ge 53 L with h | h
  · have hsign : signBit (rnd false m 1) = signBit (cvt63 .rtz m) := by
      rw [signBit_rnd, (cvt63_rtz_fields hm h63 hL).1]
    have hunit : 2 ^ (L - 53) = 2 * 2 ^ (L - 54) := by
      rw [← pow_succ']
      congr 1
      omega
    rw [Ne, eq_iff_magUnits_eq (rnd_one_fits h63).1 (isFinite_cvt63_rtz h63) hsign,
      magUnits_rnd_one_long hm h63 hL h, magUnits_cvt63_rtz_long hm h63 hL h,
      Nat.mul_left_inj (pow2_pos _).ne', Nat.mul_left_inj (Nat.two_pow_pos _).ne', hunit,
      ← Ne, nearestEven_ne_div_iff, and_iff_right h]
  · exact iff_of_false (not_not_intro (rnd_one_short hm h63 hL h))
      fun hlt => absurd hlt.1 (by omega)

/-- In 63 bits the rounding unit is at most 1024; half of it below `2^63` the carry begins. -/
theorem nearestEven_carries_iff (h : 53 < L) :
    nearestEven m (2 ^ (L - 53)) * 2 ^ (L - 53) = 2 ^ 63 ↔ 2 ^ 63 - 512 ≤ m := by
  have hlog : Nat.log2 m < 63 := (Nat.log2_lt hm).mpr h63
  constructor
  · intro hcarry
    obtain ⟨-, hnear, -⟩ := nearestEven_near m (Nat.two_pow_pos (L - 53))
    have hunit : 2 ^ (L - 53) ≤ 2 ^ 10 := Nat.pow_le_pow_right (by omega) (by omega)
    rw [Nat.mul_assoc, hcarry] at hnear
    omega
  · intro hge
    have htop : 62 ≤ Nat.log2 m := (Nat.le_log2 hm).mpr (by omega)
    obtain rfl : L = 63 := by omega
    have hrnd : nearestEven m 1024 = 2 ^ 53 := by
      unfold nearestEven
      split_ifs <;> omega
    rw [show 2 ^ (63 - 53) = 1024 from rfl, hrnd]
    rfl

/-- The conversion under RNE reaches `2^63` exactly from `2^63 - 512` on (R111). -/
theorem rnd_one_eq_top_iff : rnd false m 1 = 0x43E0000000000000 ↔ 2 ^ 63 - 512 ≤ m := by
  have htop : magUnits 0x43E0000000000000 = 2 ^ 63 * pow2 1074 := by decide
  rw [eq_iff_magUnits_eq (rnd_one_fits h63).1 rfl (signBit_rnd _ _ _), htop]
  rcases Nat.lt_or_ge 53 L with h | h
  · rw [magUnits_rnd_one_long hm h63 hL h, Nat.mul_left_inj (pow2_pos _).ne',
      nearestEven_carries_iff hm h63 hL h]
  · have hlt : m < 2 ^ 53 := (Nat.log2_lt hm).mp (by omega)
    rw [rnd_one_short hm h63 hL h, magUnits_cvt63_rtz_short hm h63 hL h,
      Nat.mul_left_inj (pow2_pos _).ne']
    omega

end

/-- Settles O29: the magnitudes under both readings, in units of 2^-1074. -/
theorem conversionKeepsTheLeading53Bits : Obligations.ConversionKeepsTheLeading53Bits := by
  refine ⟨cvt63_zero, fun m L h63 hlo hhi hone => ?_⟩
  have hm : m ≠ 0 := by have := Nat.two_pow_pos (L - 1); omega
  have hL := log2_add_one_eq hm hlo hhi hone
  obtain ⟨hsign, hexp, hfrac⟩ := cvt63_rtz_fields hm h63 hL
  have hrne : cvt63 .rne m = rnd false m 1 := if_neg hm
  rw [hrne]
  exact ⟨fun h => val_cvt63_rtz hm h63 hL (magUnits_cvt63_rtz_short hm h63 hL h),
    fun h => val_cvt63_rtz hm h63 hL (magUnits_cvt63_rtz_long hm h63 hL h), hsign, hexp, hfrac, rfl,
    cvt63_rne_ne_rtz_iff hm h63 hL, rnd_one_eq_top_iff hm h63 hL⟩

end Sys2Proof.Machine

/-! The rules of 41_bitmixer.md: the mixing function and the operation `MIX` (R140). -/

namespace Sys2Proof.Machine

/-- `MIX` drives `res` with `mix` of `a0` and leaves the other ports and the draw (R140, R22). -/
theorem exec_mix (s : State) : exec .mix s = .next { s with res := mix s.req.a0 } :=
  exec_eq_after .mix s

/-- The three steps of `mix` in the library's shifts, each on the value of the step before (R140). -/
theorem mix_eq_xor_shifts (a : Word) : mix a =
    let a1 := a ^^^ (a <<< 21)
    let a2 := a1 ^^^ (a1 >>> 35)
    a2 ^^^ (a2 <<< 4) := rfl

/-- Zero is a fixed point: every step xors shifted copies of zero (R140). -/
@[simp] theorem mix_zero : mix 0 = 0 := by decide

/-- With bit 63 set the right shift fills with zeros; an arithmetic one would give
`0x80000000F0000000` (R94, R140). -/
theorem mix_top_bit : mix 0x8000000000000000 = 0x8000000110000000 := by decide

theorem mix_all_ones : mix 0xFFFFFFFFFFFFFFFF = 0x0000000001E0000F := by decide

/-- The worked example of R140: the first step sets bit 21, the second shifts everything out, and the
third copies both bits four places up. -/
theorem mix_one : (1 : Word) ^^^ shl 1 21 = 0x0000000000200001 ∧ lshr 0x0000000000200001 35 = 0 ∧
    mix 0x0000000000000001 = 0x0000000002200011 := by decide

/-- Settles O18: the answer from the law of `exec`, then the steps of `mix`, the corner cases and the
worked example. -/
theorem mixIsThreeXorShiftSteps : Obligations.MixIsThreeXorShiftSteps := by
  obtain ⟨first_step, second_step, answer_one⟩ := mix_one
  exact ⟨rfl, exec_mix, mix_eq_xor_shifts, mix_zero, mix_top_bit, mix_all_ones, answer_one,
    first_step, second_step⟩

end Sys2Proof.Machine

/-! The rules of 42_coordinate_hasher.md: the fold step and the four hash operations (R150 to R158). -/

namespace Sys2Proof.Machine

/-! ### What the fold step keeps apart (R150, R141 (b), R158) -/

/-- Bits that are each xored with something the bits of a smaller rank decide can be recovered in the
order of the rank, so nothing is lost. -/
theorem xor_injective_of_rank {f : Word → Word} (rank : Nat → Nat)
    (hf : ∀ (a b : Word) (i : Nat), i < 64 →
      (∀ j < 64, rank j < rank i → a.getLsbD j = b.getLsbD j) → (f a).getLsbD i = (f b).getLsbD i) :
    Function.Injective fun a : Word => a ^^^ f a := by
  intro a b (hab : a ^^^ f a = b ^^^ f b)
  have hbits : ∀ r i : Nat, rank i = r → i < 64 → a.getLsbD i = b.getLsbD i := by
    intro r
    induction r using Nat.strong_induction_on with
    | h r ih =>
      rintro i rfl hi
      have hlow := hf a b i hi fun j hj hji => ih (rank j) hji j rfl hj
      have hbit := congrArg (BitVec.getLsbD · i) hab
      simpa only [BitVec.getLsbD_xor, hlow, Bool.xor_left_inj] using hbit
  exact BitVec.eq_of_getLsbD_eq fun i hi => hbits (rank i) i rfl hi

/-- A left xor-shift takes every bit from lower ones: they come back from the bottom up. -/
theorem xor_shl_injective {n : Nat} (hn : 0 < n) :
    Function.Injective fun a : Word => a ^^^ shl a n := by
  refine xor_injective_of_rank id fun a b i hi hlow => ?_
  rw [getLsbD_shl a n hi, getLsbD_shl b n hi]
  by_cases hni : n ≤ i
  · rw [hlow (i - n) (by omega) (by simp only [id]; omega)]
  · rw [decide_eq_false hni, Bool.false_and, Bool.false_and]

/-- A right xor-shift takes every bit from higher ones: they come back from the top down. -/
theorem xor_lshr_injective {n : Nat} (hn : 0 < n) :
    Function.Injective fun a : Word => a ^^^ lshr a n := by
  refine xor_injective_of_rank (64 - ·) fun a b i hi hhigh => ?_
  rw [getLsbD_lshr, getLsbD_lshr]
  by_cases hin : i + n < 64
  · exact hhigh (i + n) hin (by omega)
  · rw [BitVec.getLsbD_of_ge a _ (by omega), BitVec.getLsbD_of_ge b _ (by omega)]

/-- No step of `mix` loses anything (R141 (b)). -/
theorem mix_injective : Function.Injective mix :=
  ((xor_shl_injective (n := 4) (by decide)).comp (xor_lshr_injective (n := 35) (by decide))).comp
    (xor_shl_injective (n := 21) (by decide))

/-- The double mix and the addition keep two mixed and rotated operands apart (R158). -/
theorem fold_right_injective (acc : Word) : Function.Injective (fold acc) := by
  intro v v' h
  have hrotl : rotl (mix v) 17 = rotl (mix v') 17 :=
    (BitVec.add_right_inj _).mp (mix_injective (mix_injective h))
  exact mix_injective (rotl_injective (by decide) hrotl)

theorem fold_left_injective (v : F64) : Function.Injective (fold · v) := by
  intro acc acc' h
  exact (BitVec.add_left_inj _).mp (mix_injective (mix_injective h))

/-! ### Every operand of every arity: the last one by the fold, the others by the arity below (R155) -/

theorem hash1_injective : Function.Injective hash1 := fold_right_injective seed

section
variable {x x' : F64} (hne : x ≠ x')
include hne

theorem hash2_ne (y : F64) : hash2 x y ≠ hash2 x' y ∧ hash2 y x ≠ hash2 y x' :=
  ⟨(fold_left_injective y).ne (hash1_injective.ne hne), (fold_right_injective _).ne hne⟩

theorem hash3_ne (y z : F64) :
    hash3 x y z ≠ hash3 x' y z ∧ hash3 y x z ≠ hash3 y x' z ∧ hash3 y z x ≠ hash3 y z x' :=
  have ⟨first, second⟩ := hash2_ne hne y
  ⟨(fold_left_injective z).ne first, (fold_left_injective z).ne second,
    (fold_right_injective _).ne hne⟩

theorem hash4_ne (y z t : F64) :
    hash4 x y z t ≠ hash4 x' y z t ∧ hash4 y x z t ≠ hash4 y x' z t ∧
    hash4 y z x t ≠ hash4 y z x' t ∧ hash4 y z t x ≠ hash4 y z t x' :=
  have ⟨first, second, third⟩ := hash3_ne hne y z
  ⟨(fold_left_injective t).ne first, (fold_left_injective t).ne second,
    (fold_left_injective t).ne third, (fold_right_injective _).ne hne⟩

end

/-- Settles O23: the fold is injective in the operand and in the accumulator, so each arity separates
its last operand and inherits the others from the arity below. -/
theorem hashesSeparatePatternsInEveryOperand : Obligations.HashesSeparatePatternsInEveryOperand :=
  ⟨fun _ _ hne => hash1_injective.ne hne, fun _ _ y hne => hash2_ne hne y,
    fun _ _ y z hne => hash3_ne hne y z, fun _ _ y z t hne => hash4_ne hne y z t⟩

/-! ### The answers and the chain of folds (R150 to R155) -/

/-- The fold with the library's addition and rotate (R95, R96, R150). -/
theorem fold_eq_rotateLeft (acc : Word) (v : F64) :
    fold acc v = mix (mix (acc + (mix v).rotateLeft 17)) := rfl

theorem exec_hash1 (s : State) : exec .hash1 s = .next { s with res := hash1 s.req.a0 } :=
  exec_eq_after .hash1 s

theorem exec_hash2 (s : State) : exec .hash2 s = .next { s with res := hash2 s.req.a0 s.req.a1 } :=
  exec_eq_after .hash2 s

theorem exec_hash3 (s : State) :
    exec .hash3 s = .next { s with res := hash3 s.req.a0 s.req.a1 s.req.a2 } :=
  exec_eq_after .hash3 s

theorem exec_hash4 (s : State) :
    exec .hash4 s = .next { s with res := hash4 s.req.a0 s.req.a1 s.req.a2 s.req.a3 } :=
  exec_eq_after .hash4 s

theorem hash2_eq_fold (x y : F64) : hash2 x y = fold (hash1 x) y := rfl

theorem hash3_eq_fold (x y z : F64) : hash3 x y z = fold (hash2 x y) z := rfl

theorem hash4_eq_fold (x y z t : F64) : hash4 x y z t = fold (hash3 x y z) t := rfl

/-- Only the operand is mixed and rotated before the sum, so accumulator and operand do not exchange. -/
theorem fold_zero_one_ne_fold_one_zero : fold 0 1 ≠ fold 1 0 := by decide

/-- Settles O20: the equations of the fold and of each arity, with the answers of the operations. -/
theorem hashesAreChainsOfFolds : Obligations.HashesAreChainsOfFolds :=
  ⟨fold_eq_rotateLeft, exec_hash1, exec_hash2, exec_hash3, exec_hash4,
    fun x y z t => ⟨rfl, hash2_eq_fold x y, hash3_eq_fold x y z, hash4_eq_fold x y z t⟩,
    0, 1, fold_zero_one_ne_fold_one_zero⟩

/-! ### Corner cases and worked examples (R151 to R154, R156) -/

/-- Both zeros, two NaN payloads and the infinity of R151. -/
theorem hash1_corner_cases :
    hash1 0x0000000000000000 = 0x0200000000808202 ∧ hash1 0x8000000000000000 = 0x0422288881818716 ∧
    hash1 0x7FF8000000000000 = 0x042D369999E0EF25 ∧ hash1 0x7FF8000000000001 = 0x8E0B52C8BB8623AD ∧
    hash1 0x7FF0000000000000 = 0x007845BB91635451 := by decide

theorem mix_seed : mix 0x0000000000008000 = 0x0000011000088022 := by decide

/-- The steps of `hash1(1.0)` before the second mix (R151). -/
theorem hash1_one_steps : mix 0x3FF0000000000000 = 0xC0F00000781E0000 ∧
    rotl 0xC0F00000781E0000 17 = 0x0000F03C000181E0 ∧
    add64 seed 0x0000F03C000181E0 = 0x0000F03C000201E0 ∧
    mix 0x0000F03C000201E0 = 0x7F8FF7BFF3D3E11F := by decide

theorem hash1_one : hash1 0x3FF0000000000000 = 0x0F6951FFD2E0DAD7 := by
  obtain ⟨mixed, rotated, summed, once⟩ := hash1_one_steps
  rw [hash1, fold, rawBits, mixed, rotated, summed, once]
  decide

/-- The steps of `hash2(1.0, 2.0)` on the accumulator `hash1(1.0)` (R152). -/
theorem hash2_one_two_steps : mix 0x4000000000000000 = 0x4000000088000000 ∧
    rotl 0x4000000088000000 17 = 0x0001100000008000 ∧
    add64 0x0F6951FFD2E0DAD7 0x0001100000008000 = 0x0F6A61FFD2E15AD7 ∧
    mix 0x0F6A61FFD2E15AD7 = 0x3993E09C6F268BBD ∧
    mix 0x3993E09C6F268BBD = 0x8BFE409CC191F874 := by decide

theorem hash2_one_two : hash2 0x3FF0000000000000 0x4000000000000000 = 0x8BFE409CC191F874 := by
  obtain ⟨mixed, rotated, summed, once, twice⟩ := hash2_one_two_steps
  rw [hash2_eq_fold, hash1_one, fold, rawBits, mixed, rotated, summed, once, twice]

theorem hash2_two_one : hash2 0x4000000000000000 0x3FF0000000000000 = 0x06E90829C1FE15FA := by
  decide

theorem hash2_zeros : hash2 0 0 = 0x08080040C1018000 := by
  obtain ⟨hash1_zero, -⟩ := hash1_corner_cases
  rw [hash2_eq_fold, hash1_zero]
  decide

theorem hash3_zeros : hash3 0 0 0 = 0x0608004143868A0E := by
  rw [hash3_eq_fold, hash2_zeros]
  decide

theorem hash3_one_two_three :
    hash3 0x3FF0000000000000 0x4000000000000000 0x4008000000000000 = 0xD92B137B54662DB8 := by
  rw [hash3_eq_fold, hash2_one_two]
  decide

theorem hash4_zeros : hash4 0 0 0 0 = 0x3C20C04125028015 := by
  rw [hash4_eq_fold, hash3_zeros]
  decide

theorem hash4_one_two_three_four :
    hash4 0x3FF0000000000000 0x4000000000000000 0x4008000000000000 0x4010000000000000 =
      0xD2695D591829649A := by
  rw [hash4_eq_fold, hash3_one_two_three]
  decide

/-- Settles O21: codes, answers and equations of the four operations, then the values, each arity's
example evaluated as one fold onto the example below. -/
theorem hashRulesCornerCases : Obligations.HashRulesCornerCases := by
  obtain ⟨pos_zero, neg_zero, quiet_nan, other_nan, infinity⟩ := hash1_corner_cases
  obtain ⟨mixed₁, rotated₁, summed₁, once₁⟩ := hash1_one_steps
  obtain ⟨mixed₂, rotated₂, summed₂, once₂, twice₂⟩ := hash2_one_two_steps
  exact ⟨rfl, rfl, rfl, rfl,
    fun s => ⟨exec_hash1 s, exec_hash2 s, exec_hash3 s, exec_hash4 s⟩, fold_eq_rotateLeft seed,
    fun x y z t => ⟨hash2_eq_fold x y, hash3_eq_fold x y z, hash4_eq_fold x y z t⟩,
    pos_zero, neg_zero, quiet_nan, other_nan, infinity, hash1_one,
    mix_seed, mixed₁, rotated₁, summed₁, once₁, mixed₂, rotated₂, summed₂, once₂, twice₂,
    hash2_one_two, hash2_two_one, hash2_zeros, hash3_zeros, hash3_one_two_three, hash4_zeros,
    hash4_one_two_three_four⟩

/-- Settles O24: the rule's witness 1.0, 2.0; its two values differ. -/
theorem hashOrderMatters : Obligations.HashOrderMatters := by
  refine ⟨hash2_one_two, hash2_two_one, 0x3FF0000000000000, 0x4000000000000000, by decide, ?_⟩
  rw [hash2_one_two, hash2_two_one]
  decide

end Sys2Proof.Machine

/-! The rules of 43_unit_interval_mapper.md: the mapping function (R170) and the four unit operations
(R171 to R174). -/

namespace Sys2Proof.Machine

/-! ### The 63 bits that are converted (R170) -/

theorem and_maxPos_toNat (h : Word) : (h &&& maxPos).toNat = h.toNat % 2 ^ 63 := by
  rw [BitVec.toNat_and]
  exact Nat.and_two_pow_sub_one_eq_mod h.toNat 63

theorem unitmap_eq_fmul_cvt63 (rm : CvtMode) (d : F64) (h : Word) :
    unitmap rm d h = fmul d (cvt63 rm (h.toNat % 2 ^ 63)) kScale :=
  congrArg (fun m => fmul d (cvt63 rm m) kScale) (and_maxPos_toNat h)

/-- Inverting bit 63 leaves the low 63 bits alone. -/
theorem xor_topBit_mod (h : Word) :
    (h ^^^ 0x8000000000000000).toNat % 2 ^ 63 = h.toNat % 2 ^ 63 := by
  rw [BitVec.toNat_xor, Nat.xor_mod_two_pow]
  exact Nat.xor_zero _

theorem unitmap_xor_topBit (rm : CvtMode) (d : F64) (h : Word) :
    unitmap rm d (h ^^^ 0x8000000000000000) = unitmap rm d h := by
  rw [unitmap_eq_fmul_cvt63, unitmap_eq_fmul_cvt63, xor_topBit_mod]

/-! ### The converted value (R111, R170) -/

/-- The multiples of a power of two around a 63-bit number, below it and nearest to it, lie in
`[1, 2^63]`. -/
theorem multiples_near_bounds {m a : Nat} (hlo : 2 ^ a ≤ m) (h63 : m < 2 ^ 63) :
    1 ≤ m / 2 ^ a * 2 ^ a ∧ m / 2 ^ a * 2 ^ a ≤ nearestEven m (2 ^ a) * 2 ^ a ∧
      nearestEven m (2 ^ a) * 2 ^ a ≤ 2 ^ 63 := by
  have ha : a ≤ 63 := (Nat.pow_lt_pow_iff_right (by decide)).mp (hlo.trans_lt h63) |>.le
  have htop : 2 ^ (63 - a) * 2 ^ a = 2 ^ 63 := by rw [← pow_add, Nat.sub_add_cancel ha]
  have hdiv : 1 ≤ m / 2 ^ a := Nat.div_pos hlo (Nat.two_pow_pos a)
  have hnear : nearestEven m (2 ^ a) ≤ 2 ^ (63 - a) :=
    nearestEven_le (Nat.two_pow_pos a) (htop ▸ h63.le)
  exact ⟨Nat.mul_pos hdiv (Nat.two_pow_pos a), Nat.mul_le_mul_right _ (le_nearestEven _ _),
    htop ▸ Nat.mul_le_mul_right _ hnear⟩

theorem cvt63_rne_eq_rnd {m : Nat} (hm : m ≠ 0) : cvt63 .rne m = rnd false m 1 := if_neg hm

section
variable {m : Nat} (hm : m ≠ 0) (h63 : m < 2 ^ 63)
include hm h63

theorem magUnits_cvt63_rtz_eq_div : magUnits (cvt63 .rtz m) =
    m / 2 ^ (Nat.log2 m + 1 - 53) * 2 ^ (Nat.log2 m + 1 - 53) * pow2 1074 := by
  rcases Nat.lt_or_ge 53 (Nat.log2 m + 1) with h | h
  · exact magUnits_cvt63_rtz_long hm h63 rfl h
  · rw [magUnits_cvt63_rtz_short hm h63 rfl h, Nat.sub_eq_zero_of_le h, pow_zero, Nat.div_one,
      Nat.mul_one]

theorem magUnits_rnd_one_eq_nearestEven : magUnits (rnd false m 1) =
    nearestEven m (2 ^ (Nat.log2 m + 1 - 53)) * 2 ^ (Nat.log2 m + 1 - 53) * pow2 1074 := by
  rcases Nat.lt_or_ge 53 (Nat.log2 m + 1) with h | h
  · exact magUnits_rnd_one_long hm h63 rfl h
  · have hone : nearestEven m 1 = m := by simpa using nearestEven_mul m one_pos
    rw [rnd_one_short hm h63 rfl h, magUnits_cvt63_rtz_short hm h63 rfl h,
      Nat.sub_eq_zero_of_le h, pow_zero, hone, Nat.mul_one]

/-- Under either reading a nonzero number converts to a positive integer of at most `2^63`. -/
theorem cvt63_positive_integer (rm : CvtMode) :
    isFinite (cvt63 rm m) = true ∧ signBit (cvt63 rm m) = false ∧
      ∃ k, 1 ≤ k ∧ k ≤ 2 ^ 63 ∧ magUnits (cvt63 rm m) = k * pow2 1074 := by
  have hunit : 2 ^ (Nat.log2 m + 1 - 53) ≤ m :=
    (Nat.pow_le_pow_right (by decide) (by omega)).trans (Nat.log2_self_le hm)
  obtain ⟨hone, hle, htop⟩ := multiples_near_bounds hunit h63
  cases rm with
  | rtz =>
    exact ⟨isFinite_cvt63_rtz h63, (cvt63_rtz_sign_exp hm h63).1, _, hone, hle.trans htop,
      magUnits_cvt63_rtz_eq_div hm h63⟩
  | rne =>
    rw [cvt63_rne_eq_rnd hm]
    exact ⟨(rnd_one_fits h63).1, signBit_rnd _ _ _, _, hone.trans hle, htop,
      magUnits_rnd_one_eq_nearestEven hm h63⟩

theorem val_cvt63_bounds (rm : CvtMode) : 1 ≤ val (cvt63 rm m) ∧ val (cvt63 rm m) ≤ 2 ^ 63 := by
  obtain ⟨-, hsign, k, hone, htop, hmag⟩ := cvt63_positive_integer hm h63 rm
  have hval : val (cvt63 rm m) = (k : ℤ) :=
    val_eq_of_units (by rw [units_of_signBit_false hsign, hmag, Nat.cast_mul])
  rw [hval]
  exact_mod_cast And.intro hone htop

end

/-- A converted number is `+0` or lies in `[1, 2^63]`. -/
theorem cvt63_zero_or_bounds (rm : CvtMode) {m : Nat} (h63 : m < 2 ^ 63) :
    cvt63 rm m = 0x0000000000000000 ∨ (1 ≤ val (cvt63 rm m) ∧ val (cvt63 rm m) ≤ 2 ^ 63) := by
  rcases eq_or_ne m 0 with rfl | hm
  · exact .inl (cvt63_zero rm)
  · exact .inr (val_cvt63_bounds hm h63 rm)

theorem isFinite_cvt63 (rm : CvtMode) {m : Nat} (h63 : m < 2 ^ 63) :
    isFinite (cvt63 rm m) = true := by
  rcases eq_or_ne m 0 with rfl | hm
  · rw [cvt63_zero rm]
    rfl
  · exact (cvt63_positive_integer hm h63 rm).1

/-! ### The scaling (R105, R170, R176) -/

theorem isFinite_of_isNormal {x : F64} (h : isNormal x = true) : isFinite x = true :=
  (Bool.and_eq_true_iff.mp h).2

/-- From `[1, 2^63]` the scaling goes to `[2^-63, 1]`, far from underflow, so it is exact. -/
theorem fmul_kScale_exact {x : F64} (d : F64) (hx : isFinite x = true) (hlo : 1 ≤ val x)
    (hhi : val x ≤ 2 ^ 63) :
    isFinite (fmul d x kScale) = true ∧ val (fmul d x kScale) = val x / 2 ^ 63 := by
  obtain ⟨-, -, -, hscale, -⟩ := wiredConstantsHaveTheirValues
  have hprod : val x * val kScale = val x / 2 ^ 63 := by rw [hscale, mul_one_div]
  have habs : |val x * val kScale| = val x / 2 ^ 63 := by
    rw [hprod, abs_of_nonneg (div_nonneg (by linarith) (by positivity))]
  have hnormal : 1 / (2 : ℚ) ^ 1022 ≤ val x / 2 ^ 63 :=
    (one_div_pow_le_one_div_pow_of_le one_le_two (by decide)).trans
      (div_le_div_of_nonneg_right hlo (by positivity))
  have hone : val x / 2 ^ 63 ≤ 1 := (div_le_one (by positivity)).mpr hhi
  obtain ⟨hnorm, hval⟩ := powerOfTwoScalingIsExact d x kScale (.inr (.inr rfl)) hx
    (habs ▸ hnormal) (habs ▸ hone.trans_lt (one_lt_pow₀ one_lt_two (by decide)))
  exact ⟨isFinite_of_isNormal hnorm, hval.trans hprod⟩

/-- Settles O26: the conversion gives `+0`, which the product keeps, or a value in the range where
scaling is exact. -/
theorem unitMapScalesTheConversionExactly : Obligations.UnitMapScalesTheConversionExactly := by
  intro rm d h
  have h63 : h.toNat % 2 ^ 63 < 2 ^ 63 := Nat.mod_lt _ (by decide)
  have hrange := cvt63_zero_or_bounds rm h63
  refine ⟨and_maxPos_toNat h, unitmap_eq_fmul_cvt63 rm d h, (unitmap_xor_topBit rm d h).symm,
    hrange, ?_⟩
  rw [unitmap_eq_fmul_cvt63]
  obtain hzero | ⟨hlo, hhi⟩ := hrange
  · rw [hzero, fmul_zero d rfl rfl (.inl rfl), val_of_isZero (isZero_zeroOf _),
      val_of_isZero (x := 0) rfl, zero_div]
    exact ⟨isFinite_zeroOf _, rfl⟩
  · exact fmul_kScale_exact d (isFinite_cvt63 rm h63) hlo hhi

/-! ### The four operations (R171 to R174) -/

/-- An operation whose meaning is a mapped hash drives `res` with it, and the pattern drawn at the
scaling plays no part (R175). -/
theorem exec_of_eval_unitmap {i : Instr} {s : State} {h : Word}
    (heval : eval s.nanAt i s.req = unitmap .rtz (s.nanAt .unitScale) h) (d : F64) :
    exec i s = .next { s with res := unitmap .rtz d h } := by
  rw [← unitmap_rtz_draw (s.nanAt .unitScale) d, ← heval]
  exact exec_eq_after i s

theorem exec_unit1 (s : State) (d : F64) :
    exec .unit1 s = .next { s with res := unitmap .rtz d (hash1 s.req.a0) } :=
  exec_of_eval_unitmap rfl d

theorem exec_unit2 (s : State) (d : F64) :
    exec .unit2 s = .next { s with res := unitmap .rtz d (hash2 s.req.a0 s.req.a1) } :=
  exec_of_eval_unitmap rfl d

theorem exec_unit3 (s : State) (d : F64) :
    exec .unit3 s = .next { s with res := unitmap .rtz d (hash3 s.req.a0 s.req.a1 s.req.a2) } :=
  exec_of_eval_unitmap rfl d

theorem exec_unit4 (s : State) (d : F64) :
    exec .unit4 s =
      .next { s with res := unitmap .rtz d (hash4 s.req.a0 s.req.a1 s.req.a2 s.req.a3) } :=
  exec_of_eval_unitmap rfl d

/-! ### Corner cases and worked examples (R171 to R174) -/

/-- A mapped value by its intermediates: the 63 bits `m`, their conversion `c`, and the result `r`,
which is `c` with its exponent lowered by 63. -/
theorem unitmap_of_steps {rm : CvtMode} {h : Word} {m : Nat} {c r : F64} (d : F64)
    (hm : h.toNat % 2 ^ 63 = m) (hc : cvt63 rm m = c)
    (hr : isFinite c = true ∧ 64 ≤ expField c ∧
      mkF64 (signBit c) (expField c - 63) (fracField c) = r) : unitmap rm d h = r := by
  obtain ⟨hfin, hexp, hres⟩ := hr
  rw [unitmap_eq_fmul_cvt63, hm, hc, fmul_kScale d hfin hexp, hres]

theorem unitmap_of_mod_eq_zero {h : Word} (rm : CvtMode) (d : F64) (hm : h.toNat % 2 ^ 63 = 0) :
    unitmap rm d h = 0x0000000000000000 := by
  rw [unitmap_eq_fmul_cvt63, hm, cvt63_zero, fmul_zero d rfl rfl (.inl rfl)]
  rfl

/-- The operands of R171 whose hashes are zero, the sign bit alone, and every bit but it. -/
theorem hash1_extreme_values : hash1 0xD113F4CCDBDE1EEE = 0 ∧
    hash1 0x26C49494860C0890 = 0x8000000000000000 ∧
    hash1 0x5AA31D30F3ECFEB0 = 0x7FFFFFFFFFFFFFFF := by decide

/-- The conversions of the worked examples of R171 to R174, in their order. -/
theorem cvt63_rtz_examples : cvt63 .rtz 0x0F6951FFD2E0DAD7 = 0x43AED2A3FFA5C1B5 ∧
    cvt63 .rtz 0x0BFE409CC191F874 = 0x43A7FC81398323F0 ∧
    cvt63 .rtz 0x592B137B54662DB8 = 0x43D64AC4DED5198B ∧
    cvt63 .rtz 0x52695D591829649A = 0x43D49A5756460A59 := by decide

/-- The worked examples of R171 to R174, each mapped from its hash by its conversion. -/
theorem unitmap_examples (d : F64) :
    unitmap .rtz d (hash1 0x3FF0000000000000) = 0x3FBED2A3FFA5C1B5 ∧
    unitmap .rtz d (hash2 0x3FF0000000000000 0x4000000000000000) = 0x3FB7FC81398323F0 ∧
    unitmap .rtz d (hash3 0x3FF0000000000000 0x4000000000000000 0x4008000000000000) =
      0x3FE64AC4DED5198B ∧
    unitmap .rtz d (hash4 0x3FF0000000000000 0x4000000000000000 0x4008000000000000
      0x4010000000000000) = 0x3FE49A5756460A59 := by
  obtain ⟨one, two, three, four⟩ := cvt63_rtz_examples
  rw [hash1_one, hash2_one_two, hash3_one_two_three, hash4_one_two_three_four]
  exact ⟨unitmap_of_steps d rfl one (by decide), unitmap_of_steps d rfl two (by decide),
    unitmap_of_steps d rfl three (by decide), unitmap_of_steps d rfl four (by decide)⟩

/-- The operands of R172's example exchanged (R156). -/
theorem unitmap_hash2_two_one (d : F64) :
    unitmap .rtz d (hash2 0x4000000000000000 0x3FF0000000000000) = 0x3FABA420A707F857 := by
  have hcvt : cvt63 .rtz 0x06E90829C1FE15FA = 0x439BA420A707F857 := by decide
  rw [hash2_two_one]
  exact unitmap_of_steps d rfl hcvt (by decide)

/-- The greatest result, 1 - 2^-53, by its fields. -/
theorem val_greatest_unit_result : val 0x3FEFFFFFFFFFFFFF = 1 - 1 / 2 ^ 53 := by
  obtain ⟨hs, he, hf⟩ : signBit 0x3FEFFFFFFFFFFFFF = false ∧ expField 0x3FEFFFFFFFFFFFFF = 1022 ∧
      fracField 0x3FEFFFFFFFFFFFFF = 2 ^ 52 - 1 := by decide
  rw [val_of_isNormal (by decide), hs, he, hf]
  norm_num

/-- The greatest hash maps just below 1.0: its conversion cuts the low bits off. -/
theorem unitmap_rtz_maxPos (d : F64) : unitmap .rtz d 0x7FFFFFFFFFFFFFFF = 0x3FEFFFFFFFFFFFFF := by
  have hcvt : cvt63 .rtz 0x7FFFFFFFFFFFFFFF = 0x43DFFFFFFFFFFFFF := by decide
  exact unitmap_of_steps d rfl hcvt (by decide)

/-- Under the other reading of `CVT_RM` its conversion is carried up to `2^63`, so it maps to 1.0. -/
theorem unitmap_rne_maxPos (d : F64) : unitmap .rne d 0x7FFFFFFFFFFFFFFF = 0x3FF0000000000000 := by
  have hcvt : cvt63 .rne 0x7FFFFFFFFFFFFFFF = 0x43E0000000000000 := by
    rw [cvt63_rne_eq_rnd (by decide)]
    exact (rnd_one_eq_top_iff (by decide) (by decide) rfl).mpr (by decide)
  exact unitmap_of_steps d rfl hcvt (by decide)

/-- Settles O25: codes, range and answers, then the values, each mapped by its conversion. -/
theorem unitOperationsMapTheHash : Obligations.UnitOperationsMapTheHash := by
  obtain ⟨hash_zero, hash_sign, hash_ones⟩ := hash1_extreme_values
  obtain ⟨cvt₁, cvt₂, cvt₃, cvt₄⟩ := cvt63_rtz_examples
  refine ⟨rfl, rfl, rfl, rfl, fun d h => ?range,
    fun s d => ⟨exec_unit1 s d, exec_unit2 s d, exec_unit3 s d, exec_unit4 s d⟩,
    hash_zero, hash_sign, hash_ones, val_greatest_unit_result, cvt₁, cvt₂, cvt₃, cvt₄,
    fun d => ?values⟩
  case range =>
    obtain ⟨hfin, -, hnonneg, hlt⟩ := unitmap_rtz_range d h
    exact ⟨hfin, hnonneg, hlt⟩
  case values =>
    obtain ⟨unit₁, unit₂, unit₃, unit₄⟩ := unitmap_examples d
    have hswap : (0x3FB7FC81398323F0 : F64) ≠ 0x3FABA420A707F857 := by decide
    rw [unit₁, unit₂, unit₃, unit₄, unitmap_hash2_two_one, hash_zero, hash_sign, hash_ones]
    exact ⟨hswap, unitmap_of_mod_eq_zero .rtz d rfl, unitmap_of_mod_eq_zero .rtz d rfl,
      unitmap_rtz_maxPos d, unitmap_rne_maxPos d, rfl, rfl, rfl, rfl⟩

end Sys2Proof.Machine

/-! The rules of 45_channel_packer.md: one channel (R220), the two packers (R221, R222) and the layout
of the packed word (R223). -/

namespace Sys2Proof.Machine

/-! ### Scaling by a power of two (R105) -/

/-- Scaling up by a power of two loses nothing while the magnitude stays in the format: the significand
is kept, also that of a subnormal. -/
theorem fmul_pow2_of_lt {x k : F64} {a : Nat} (nan : F64) (hx : isFinite x = true)
    (hk : isFinite k = true) (ha : magUnits k = pow2 (a + 1074))
    (hlt : magUnits x * pow2 a < pow2 2098) :
    isFinite (fmul nan x k) = true ∧ signBit (fmul nan x k) = (signBit x != signBit k) ∧
      magUnits (fmul nan x k) = magUnits x * pow2 a := by
  cases hz : isZero x with
  | true =>
    rw [fmul_zero nan hx hk (.inl hz), isZero_iff_magUnits.mp hz, Nat.zero_mul]
    exact ⟨isFinite_zeroOf _, signBit_zeroOf _, magUnits_zeroOf _⟩
  | false =>
    have hmag : magUnits x * pow2 a = significand x * pow2 (expField x - 1 + a) := by
      rw [magUnits_eq_significand_mul, Nat.mul_assoc, ← pow2_add]
    obtain ⟨z, hzfin, hzsign, hzmag⟩ :=
      exists_datum (signBit x != signBit k) (significand_lt x) (hmag ▸ hlt)
    rw [← hmag] at hzmag
    have hznz : isZero z = false := by
      rw [isZero_eq_false_iff, hzmag]
      exact Nat.mul_ne_zero (isZero_eq_false_iff.mp hz) (pow2_pos a).ne'
    rw [fmul_of_units_mul nan hx hk hzfin hznz
      (units_mul_eq_of_magUnits hzsign (by rw [ha, hzmag, pow2_add, Nat.mul_assoc]))]
    exact ⟨hzfin, hzsign, hzmag⟩

/-- From `2^1024` on the scaled magnitude overflows. -/
theorem fmul_pow2_of_le {x k : F64} {a : Nat} (nan : F64) (hx : isFinite x = true)
    (hk : isFinite k = true) (ha : magUnits k = pow2 (a + 1074))
    (hle : pow2 2098 ≤ magUnits x * pow2 a) :
    fmul nan x k = infOf (signBit x != signBit k) := by
  have hxz : isZero x = false := by
    rw [isZero_eq_false_iff]
    intro h0
    rw [h0, Nat.zero_mul] at hle
    exact absurd (pow2_pos 2098) (not_lt.mpr hle)
  have hkz : isZero k = false := isZero_eq_false_iff.mpr (ha ▸ (pow2_pos _).ne')
  have hover : pow2 2098 * pow2 2148 ≤ magUnits x * magUnits k * pow2 1074 := by
    calc pow2 2098 * pow2 2148 ≤ magUnits x * pow2 a * pow2 2148 := Nat.mul_le_mul_right _ hle
      _ = magUnits x * magUnits k * pow2 1074 := by
        rw [ha, show 2148 = 1074 + 1074 from rfl, pow2_add, pow2_add, Nat.mul_assoc, Nat.mul_assoc,
          Nat.mul_assoc]
  rw [fmul_finite nan hx hk, if_neg (by simp [hxz, hkz]), rnd_eq_infOf_iff _ _ (pow2_pos _),
    pow2_le_rndUnits_iff _ (pow2_pos _)]
  exact hover.trans (Nat.le_add_right _ _)

/-! ### One channel (R220) -/

theorem magUnits_k256 : magUnits k256 = pow2 (8 + 1074) := by decide

theorem val_k256 : val k256 = 256 := by
  have hunits : units k256 = 256 * pow2 1074 := by decide
  exact_mod_cast val_eq_of_units hunits

/-- The scaling of a channel is exact unless it overflows. -/
theorem val_fmul_k256 {v : F64} (nan : F64) (hv : isFinite v = true)
    (hy : isFinite (fmul nan v k256) = true) : val (fmul nan v k256) = val v * 256 := by
  rcases lt_or_ge (magUnits v * pow2 8) (pow2 2098) with hlt | hle
  · obtain ⟨-, hsign, hmag⟩ := fmul_pow2_of_lt nan hv rfl magUnits_k256 hlt
    rw [← val_k256, eq_comm, val_mul_val_eq_iff]
    exact units_mul_eq_of_magUnits hsign (by rw [hmag, magUnits_k256, pow2_add, Nat.mul_assoc])
  · rw [fmul_pow2_of_le nan hv rfl magUnits_k256 hle, isFinite_infOf] at hy
    cases hy

theorem fmul_infOf_k256 (nan : F64) (s : Bool) : fmul nan (infOf s) k256 = infOf s := by
  cases s <;> exact fmul_inf nan rfl rfl rfl rfl (.inl rfl)

/-- The scaling of a channel that is no NaN gives no NaN. -/
theorem isNaN_fmul_k256 {v : F64} (nan : F64) (hv : isNaN v = false) :
    isNaN (fmul nan v k256) = false := by
  cases hi : isInf v with
  | true => rw [eq_infOf hi, fmul_infOf_k256, isNaN_infOf]
  | false => exact isNaN_fmul_finite nan (isFinite_of_not v hv hi) rfl

theorem fmul_k256_cases {v : F64} (nan : F64) (hv : isNaN v = false) :
    fmul nan v k256 = infOf false ∨ fmul nan v k256 = infOf true ∨
      isFinite (fmul nan v k256) = true := by
  have hnan := isNaN_fmul_k256 nan hv
  generalize fmul nan v k256 = y at *
  rcases isNaN_or_isInf_or_isFinite y with h | h | h
  · rw [hnan] at h
    cases h
  · have hy := eq_infOf h
    cases hs : signBit y <;> rw [hs] at hy
    · exact .inl hy
    · exact .inr (.inl hy)
  · exact .inr (.inr h)

theorem chan_of_isNaN {v : F64} (nb : Byte) (nan : F64) (hv : isNaN v = true) :
    chan nb nan v = nb :=
  if_pos hv

theorem chan_of_fmul_inf {v : F64} {s : Bool} (nb : Byte) (nan : F64) (hv : isNaN v = false)
    (hy : fmul nan v k256 = infOf s) : chan nb nan v = if s then 0 else 255 := by
  simp [chan, hv, hy]

theorem chan_of_fmul_finite {v : F64} (nb : Byte) (nan : F64) (hv : isNaN v = false)
    (hy : isFinite (fmul nan v k256) = true) :
    chan nb nan v = clampByte (truncVal (fmul nan v k256)) := by
  simp [chan, hv, not_isInf_of_isFinite hy]

theorem clampByte_toNat (t : ℤ) : ((clampByte t).toNat : ℤ) = min 255 (max 0 t) := by
  rw [clampByte, BitVec.toNat_ofNat]
  omega

theorem truncVal_fneg (x : F64) : truncVal (fneg x) = -truncVal x := by
  simp only [truncVal, signBit_fneg, magUnits_fneg]
  cases signBit x <;> simp

theorem truncVal_of_signBit_false {x : F64} (h : signBit x = false) : truncVal x = ⌊val x⌋ := by
  rw [floor_val, units_of_signBit_false h]
  simp [truncVal, h]

/-- A negative datum is truncated as its negation is. -/
theorem truncVal_of_signBit_true {x : F64} (h : signBit x = true) : truncVal x = ⌈val x⌉ := by
  have hneg : signBit (fneg x) = false := by simp [h]
  calc truncVal x = -truncVal (fneg x) := by rw [truncVal_fneg, neg_neg]
    _ = -⌊-val x⌋ := by rw [truncVal_of_signBit_false hneg, val_fneg]
    _ = ⌈val x⌉ := by rw [Int.floor_neg, neg_neg]

/-- The integer part toward zero: the floor from zero up, the ceiling below it. -/
theorem truncVal_eq (x : F64) : truncVal x = if 0 ≤ val x then ⌊val x⌋ else ⌈val x⌉ := by
  cases hs : signBit x with
  | false => rw [if_pos (val_nonneg_of_signBit_false hs), truncVal_of_signBit_false hs]
  | true =>
    have hle : val x ≤ 0 := by
      have hneg := val_nonneg_of_signBit_false (x := fneg x) (by simp [hs])
      rwa [val_fneg, neg_nonneg] at hneg
    rw [truncVal_of_signBit_true hs]
    split
    next hge => rw [le_antisymm hle hge, Int.ceil_zero, Int.floor_zero]
    next => rfl

/-- Settles O49, by the class of the scaled channel. -/
theorem channelByteTruncatesAndClamps : Obligations.ChannelByteTruncatesAndClamps := by
  refine ⟨rfl, val_k256, fun nb d v => ⟨chan_of_isNaN nb d, chan_of_fmul_inf nb d,
    chan_of_fmul_inf nb d, fmul_k256_cases d, val_fmul_k256 d, fun hv hy => ?_⟩⟩
  rw [chan_of_fmul_finite nb d hv hy, clampByte_toNat, truncVal_eq]

/-! ### The packed word (R223) -/

theorem extractLsb'_zext64 (v : Word32) {start len : Nat} (h : start + len ≤ 32) :
    (zext64 v).extractLsb' start len = v.extractLsb' start len := by
  refine BitVec.eq_of_getLsbD_eq fun i hi => ?_
  simp only [zext64, BitVec.getLsbD_extractLsb', BitVec.getLsbD_setWidth]
  rw [decide_eq_true (by omega : start + i < 64), Bool.true_and]

/-- Each byte stands in its own field of the 32-bit word. -/
theorem pack_fields (a r g b : Byte) :
    (pack a r g b).extractLsb' 24 8 = a ∧ (pack a r g b).extractLsb' 16 8 = r ∧
    (pack a r g b).extractLsb' 8 8 = g ∧ (pack a r g b).extractLsb' 0 8 = b := by
  obtain ⟨ha, hr, hg, hb, -⟩ := zext64_pack_fields a r g b
  rw [extractLsb'_zext64 _ (by decide)] at ha hr hg hb
  exact ⟨ha, hr, hg, hb⟩

theorem zext64_pack (a r g b : Byte) : zext64 (pack a r g b) =
    BitVec.ofNat 64 (a.toNat * 2 ^ 24 + r.toNat * 2 ^ 16 + g.toNat * 2 ^ 8 + b.toNat) := by
  rw [← pack_toNat, BitVec.ofNat_toNat, zext64]

/-! ### The two packers (R221, R222) -/

/-- ARGB4 answers the packed bytes of its four channels, and the pattern drawn at the scaling plays no
part. -/
theorem exec_argb4 (s : State) (d : F64) : exec .argb4 s = .next { s with
    res := zext64 (pack (chan nanByte d s.req.a3) (chan nanByte d s.req.a0)
      (chan nanByte d s.req.a1) (chan nanByte d s.req.a2)) } := by
  simp only [chan_draw nanByte d (s.nanAt .chanScale)]
  exact exec_eq_after .argb4 s

theorem exec_argb3 (s : State) (d : F64) : exec .argb3 s = .next { s with
    res := zext64 (pack alphaOpaque (chan nanByte d s.req.a0) (chan nanByte d s.req.a1)
      (chan nanByte d s.req.a2)) } := by
  simp only [chan_draw nanByte d (s.nanAt .chanScale)]
  exact exec_eq_after .argb3 s

/-- Settles O52: the packed word as a number, and its fields. -/
theorem packersAnswerArgbZeroExtended : Obligations.PackersAnswerArgbZeroExtended := by
  refine ⟨rfl, rfl, fun s d => ⟨?argb4, ?argb3⟩, fun a r g b => ?fields⟩
  case argb4 =>
    rw [exec_argb4 s d, zext64_pack]
    rfl
  case argb3 =>
    rw [exec_argb3 s d, zext64_pack]
    rfl
  case fields =>
    obtain ⟨ha, hr, hg, hb⟩ := pack_fields a r g b
    exact ⟨ha, hr, hg, hb, pack_toNat a r g b⟩

/-! ### Corner cases and worked examples (R221, R222) -/

/-- The byte of a channel whose scaling does not overflow, from its sign and its magnitude. -/
theorem chan_of_magUnits {v : F64} {c : Byte} (nb : Byte) (d : F64)
    (h : isFinite v = true ∧ magUnits v * pow2 8 < pow2 2098 ∧
      clampByte (if signBit v then -(magUnits v * pow2 8 / pow2 1074 : ℕ)
        else (magUnits v * pow2 8 / pow2 1074 : ℕ)) = c) : chan nb d v = c := by
  obtain ⟨hv, hlt, hc⟩ := h
  obtain ⟨hfin, hsign, hmag⟩ := fmul_pow2_of_lt d hv rfl magUnits_k256 hlt
  rw [show signBit k256 = false from rfl, Bool.bne_false] at hsign
  rw [chan_of_fmul_finite nb d (not_isNaN_of_isFinite hv) hfin, truncVal, hsign, hmag, hc]

theorem chan_infOf (nb : Byte) (d : F64) (s : Bool) :
    chan nb d (infOf s) = if s then 0 else 255 :=
  chan_of_fmul_inf nb d (isNaN_infOf s) (fmul_infOf_k256 d s)

/-- The bytes at both ends of the scale and on both sides of 1/256 and 255/256 (R221). -/
theorem chan_boundaries (d : F64) :
    chan nanByte d 0x8000000000000000 = 0 ∧ chan nanByte d 0x3FEFDFFFFFFFFFFF = 254 ∧
    chan nanByte d 0x3FEFE00000000000 = 255 ∧ chan nanByte d 0x3F6FFFFFFFFFFFFF = 0 ∧
    chan nanByte d 0x3F70000000000000 = 1 ∧ chan nanByte d (infOf false) = 255 ∧
    chan nanByte d (infOf true) = 0 ∧ chan nanByte d kOne = 255 :=
  ⟨chan_of_magUnits _ d (by decide), chan_of_magUnits _ d (by decide),
    chan_of_magUnits _ d (by decide), chan_of_magUnits _ d (by decide),
    chan_of_magUnits _ d (by decide), chan_infOf _ d false, chan_infOf _ d true,
    chan_of_magUnits _ d (by decide)⟩

/-- The bytes of the other channels of the worked examples: 0, 0.25, 0.5, 0.75, 2.0 and -1.0. -/
theorem chan_examples (d : F64) :
    chan nanByte d 0 = 0 ∧ chan nanByte d 0x3FD0000000000000 = 0x40 ∧
    chan nanByte d kHalf = 0x80 ∧ chan nanByte d 0x3FE8000000000000 = 0xC0 ∧
    chan nanByte d kTwo = 255 ∧ chan nanByte d 0xBFF0000000000000 = 0 := by
  refine ⟨?_, ?_, ?_, ?_, ?_, ?_⟩ <;> exact chan_of_magUnits nanByte d (by decide)

/-- Settles O53: codes and answers, then the words, each packed from the bytes of its channels. -/
theorem packerRulesCornerCases : Obligations.PackerRulesCornerCases := by
  obtain ⟨zero, quarter, half, threeQuarters, two, minusOne⟩ := chan_examples 0
  obtain ⟨-, -, -, -, -, posInf, negInf, one⟩ := chan_boundaries 0
  refine ⟨rfl, rfl, rfl, fun s d => ⟨exec_argb4 s d, exec_argb3 s d⟩, fun d => ?bytes,
    fun s hr hg hb ha => ?transparent, fun s hr hg hb ha => ?white, fun s hr hg hb ha => ?special,
    fun s hr hg hb ha => ?example4, fun s hr hg hb => ?black, fun s hr hg hb => ?red,
    fun s hr hg hb => ?example3⟩
  case bytes =>
    obtain ⟨h₁, h₂, h₃, h₄, h₅, h₆, h₇, h₈⟩ := chan_boundaries d
    exact ⟨h₁, h₂, h₃, h₄, h₅, h₆, h₇, h₈, fun v => chan_of_isNaN nanByte d⟩
  case transparent =>
    rw [exec_argb4 s 0, hr, hg, hb, ha, zero]
    rfl
  case white =>
    rw [exec_argb4 s 0, hr, hg, hb, ha, one]
    rfl
  case special =>
    rw [exec_argb4 s 0, chan_of_isNaN nanByte 0 hr, hg, hb,
      chan_of_isNaN nanByte 0 ha, posInf, negInf]
    rfl
  case example4 =>
    rw [exec_argb4 s 0, hr, hg, hb, ha, quarter, half, threeQuarters]
    rfl
  case black =>
    rw [exec_argb3 s 0, hr, hg, hb, zero]
    rfl
  case red =>
    rw [exec_argb3 s 0, hr, hg, hb, one, zero]
    rfl
  case example3 =>
    rw [exec_argb3 s 0, hr, hg, hb, minusOne, half, two]
    rfl

end Sys2Proof.Machine
